-- ==== Sys2Proof/Word.lean ====
section
/-! DEFINITION. The words of the machine: register bytes, command words, callback handles. -/

namespace Sys2Proof

/-- The content of a register: `REGW = 8` bits (R5, R21). -/
abbrev Byte := BitVec 8

/-- A command word: `CMDW = 48` bits (R7, R90). -/
abbrev CmdWord := BitVec 48

/-- A callback handle, opaque to the block (R37). Its width is the parameter `Config.cbw`, so it is a number and
the width is a bound on it. -/
abbrev Handle := Nat

end Sys2Proof
end

