-- ==== Sys2Proof/Config.lean ====
section
/-! DEFINITION. The register names and the implementation parameters of R6: what one implementation
fixes and the spec leaves open. No statement may rest on a default; statements range over every
well-formed configuration. -/

namespace Sys2Proof

/-- The four ports in their fixed order, port numbers 0, 1, 2, 3 (R5). -/
inductive Port
  | A | B | C | D
  deriving DecidableEq, Repr

/-- The port number (R5). -/
def Port.number : Port → Nat
  | .A => 0
  | .B => 1
  | .C => 2
  | .D => 3

/-- One thing per port. -/
structure PerPort (α : Type) where
  a : α
  b : α
  c : α
  d : α
  deriving DecidableEq, Repr

/-- The entry of a port. -/
def PerPort.get {α : Type} (x : PerPort α) : Port → α
  | .A => x.a
  | .B => x.b
  | .C => x.c
  | .D => x.d

/-- The same with the entry of one port replaced. -/
def PerPort.set {α : Type} (x : PerPort α) (p : Port) (v : α) : PerPort α :=
  match p with
  | .A => { x with a := v }
  | .B => { x with b := v }
  | .C => { x with c := v }
  | .D => { x with d := v }

/-- The sixteen registers of the register space by name (R20, R60). -/
inductive Reg
  | dir (p : Port)
  | out (p : Port)
  | inp (p : Port)
  | tctrl
  | tcnt
  | tcmp
  | timsk
  deriving DecidableEq, Repr

/-- All sixteen registers. -/
def Reg.all : List Reg :=
  [.dir .A, .dir .B, .dir .C, .dir .D, .out .A, .out .B, .out .C, .out .D,
   .inp .A, .inp .B, .inp .C, .inp .D, .tctrl, .tcnt, .tcmp, .timsk]

/-- The contents of the register space: one byte a register, all of its memory (R20, R60). -/
structure RegSpace where
  /-- `DIR[0..3]` (R23). -/
  dir : PerPort Byte
  /-- `OUT[0..3]` (R24). -/
  out : PerPort Byte
  /-- `IN[0..3]` (R25). -/
  inp : PerPort Byte
  /-- `TCTRL` (R26). -/
  tctrl : Byte
  /-- `TCNT` (R31). -/
  tcnt : Byte
  /-- `TCMP` (R32). -/
  tcmp : Byte
  /-- `TIMSK` (R33). -/
  timsk : Byte
  deriving DecidableEq, Repr

/-- The parameters the document leaves open, one field a row of R6's table. -/
structure Config where
  /-- `AW`, the width in bits of a register address. -/
  aw : Nat
  /-- `A_DIR[p]`. -/
  aDir : PerPort Nat
  /-- `A_OUT[p]`. -/
  aOut : PerPort Nat
  /-- `A_IN[p]`. -/
  aIn : PerPort Nat
  /-- `A_TCTRL`. -/
  aTctrl : Nat
  /-- `A_TCNT`. -/
  aTcnt : Nat
  /-- `A_TCMP`. -/
  aTcmp : Nat
  /-- `A_TIMSK`. -/
  aTimsk : Nat
  /-- `FOC_B`, position of the force-output-compare bit in `TCTRL`. -/
  focB : Nat
  /-- `WGMLO_B`, position of the low waveform-generation bit in `TCTRL`. -/
  wgmLoB : Nat
  /-- `WGMHI_B`, position of the high waveform-generation bit in `TCTRL`. -/
  wgmHiB : Nat
  /-- `COM_LSB`, position of the low bit of the 2-bit compare-output field in `TCTRL`. -/
  comLsb : Nat
  /-- `CS_LSB`, position of the low bit of the 3-bit clock-source field in `TCTRL`. -/
  csLsb : Nat
  /-- `OCIE_B`, position of the compare-match interrupt enable in `TIMSK`. -/
  ocieB : Nat
  /-- `TOIE_B`, position of the overflow interrupt enable in `TIMSK`. -/
  toieB : Nat
  /-- `P_FOC_KEEP`: T0INIT in CTC or FastPWM keeps the force-output-compare bit (R30, D25). -/
  pFocKeep : Bool
  /-- `P_IE_ASSIGN`: T0INIT writes the enable bit with the flag's value (R174, D26). -/
  pIeAssign : Bool
  /-- `INIT_REGS`, the sixteen registers after reset (R45, D35). -/
  initRegs : RegSpace
  /-- `CBW`, the width in bits of a callback handle (D30); R6 puts no constraint on it. -/
  cbw : Nat
  deriving DecidableEq, Repr

namespace Config

/-- The address of a register (R6, R60). -/
def addr (cfg : Config) : Reg → Nat
  | .dir p => cfg.aDir.get p
  | .out p => cfg.aOut.get p
  | .inp p => cfg.aIn.get p
  | .tctrl => cfg.aTctrl
  | .tcnt => cfg.aTcnt
  | .tcmp => cfg.aTcmp
  | .timsk => cfg.aTimsk

/-- The bit positions of `TCTRL`, field by field: `FOC`, `WGMLO`, `WGMHI`, `COM`, `CS` (R26). -/
def ctrlBits (cfg : Config) : List Nat :=
  [cfg.focB, cfg.wgmLoB, cfg.wgmHiB, cfg.comLsb, cfg.comLsb + 1,
   cfg.csLsb, cfg.csLsb + 1, cfg.csLsb + 2]

/-- R6: `AW >= 5`, and the sixteen addresses are distinct addresses of `AW` bits. -/
def wfAddresses (cfg : Config) : Bool :=
  decide (5 ≤ cfg.aw) && decide ((Reg.all.map cfg.addr).Nodup)
    && Reg.all.all (fun r => decide (cfg.addr r < 2 ^ cfg.aw))

/-- R6: the five fields of the control register are disjoint and cover bits 7..0. -/
def wfCtrlBits (cfg : Config) : Bool :=
  decide cfg.ctrlBits.Nodup && (List.range 8).all (fun b => decide (b ∈ cfg.ctrlBits))

/-- R6: the two enables of the interrupt-mask register stand at distinct positions 0..7. -/
def wfEnableBits (cfg : Config) : Bool :=
  decide (cfg.ocieB < 8) && decide (cfg.toieB < 8) && decide (cfg.ocieB ≠ cfg.toieB)

/-- The constraints of R6's table. -/
def wf (cfg : Config) : Bool :=
  cfg.wfAddresses && cfg.wfCtrlBits && cfg.wfEnableBits

/-- All sixteen registers 0x00: the optional premise of R45, `[from general knowledge, not in source]`.
PRESUMED (log 8), unsafe: the spec states no reset value. -/
def zeroRegs : RegSpace :=
  { dir := ⟨0, 0, 0, 0⟩, out := ⟨0, 0, 0, 0⟩, inp := ⟨0, 0, 0, 0⟩
    tctrl := 0, tcnt := 0, tcmp := 0, timsk := 0 }

/-- The defaults of `92_eei_decisions.md`: D8 (addresses, PRESUMED, log 5), D9 (`AW`), D20 and D21 (bit
positions, PRESUMED, log 6), D25 and D26 (policies, log 7), D30 (`CBW`, log 7), and zero registers
(PRESUMED, log 8). It is the configuration of `State.reset` and of nothing else. -/
def default : Config :=
  { aw := 16
    aDir := ⟨0x3A, 0x37, 0x34, 0x31⟩
    aOut := ⟨0x3B, 0x38, 0x35, 0x32⟩
    aIn := ⟨0x39, 0x36, 0x33, 0x30⟩
    aTctrl := 0x53, aTcnt := 0x52, aTcmp := 0x5C, aTimsk := 0x59
    focB := 7, wgmLoB := 6, wgmHiB := 3, comLsb := 4, csLsb := 0
    ocieB := 1, toieB := 0
    pFocKeep := false, pIeAssign := true
    initRegs := zeroRegs
    cbw := 16 }

/-- The handle that a T0CB operand wider than `CBW` bits stands for. The spec says nothing of such an operand
(R96), so it is a free value, of `CBW` bits and otherwise unconstrained (DESIGN CHOICE, log 27). -/
opaque wideHandle (cbw : Nat) (handle : Nat) : BitVec cbw

end Config

end Sys2Proof
end

