-- ==== Sys2Proof/Syntax.lean ====
section
/-! DEFINITION. The twelve commands of the block, one constructor a row of spec/opcode_table.json (R97).
Enumerated operands are constructors; identifiers and indexes are natural numbers, whose bounds are
checked in WellFormed; register values are bytes (log 22). -/

namespace Sys2Proof

/-- The direction operand of PINDIR and PPDIR: 0 Input, 1 Output, 2 InputWithPullup (R98). -/
inductive Direction
  | input
  | output
  | inputWithPullup
  deriving DecidableEq, Repr

/-- The level operand of PINSET and PPSET: 0 Low, 1 High (R98). -/
inductive Level
  | low
  | high
  deriving DecidableEq, Repr

/-- The mode operand of T0INIT: 0 Normal, 1 CTC, 2 FastPWM (R94, R98). -/
inductive T0Mode
  | normal
  | ctc
  | fastPwm
  deriving DecidableEq, Repr

/-- A command. The document's names are those of R12. -/
inductive Instr
  /-- PINDIR, `resolveDirection(pinId, direction)` (R122). -/
  | pindir (id : Nat) (dir : Direction)
  /-- PINSET, `resolveState(pinId, value)` (R123). -/
  | pinset (id : Nat) (level : Level)
  /-- PINGET, `resolveRead(pinId) → bit` (R124). -/
  | pinget (id : Nat)
  /-- PPDIR, direction-set of a single pin (R142). -/
  | ppdir (port : Nat) (pin : Nat) (dir : Direction)
  /-- PPSET, value-set of a single pin (R143). -/
  | ppset (port : Nat) (pin : Nat) (level : Level)
  /-- PPTGL, toggle of a single pin (R144). -/
  | pptgl (port : Nat) (pin : Nat)
  /-- PPGET, read of a single pin (R145). -/
  | ppget (port : Nat) (pin : Nat)
  /-- PORTDIR, direction-set of a whole port (R146). -/
  | portdir (port : Nat) (val : Byte)
  /-- PORTSET, value-set of a whole port (R147). -/
  | portset (port : Nat) (val : Byte)
  /-- T0INIT, `initialize(config)` (R173). -/
  | t0init (mode : T0Mode) (ie : Bool) (clk com tick init : Byte)
  /-- T0DUTY, `setDutyCycle(value)` (R176). -/
  | t0duty (value : Byte)
  /-- T0CB, `setCallback(fn)` (R177). The handle is an abstract operand, of any `CBW` (R96, log 9). -/
  | t0cb (handle : Handle)
  deriving DecidableEq, Repr

end Sys2Proof
end

