-- ==== Sys2Proof/WellFormed.lean ====
section
/-! DEFINITION. Which commands a command word can spell: an identifier, a port number and a pin number are
carried as unsigned bytes (R91, R92, R93; `92_eei_decisions.md` D4: "Identifiers of 256 or more, and
negative ones, cannot be written"). A value out of the device's range is still well formed: it is a
defined no-op (R102). -/

namespace Sys2Proof

/-- An operand that one byte of the command word carries. -/
def fitsByte (n : Nat) : Bool := decide (n < 256)

/-- A handle that format H's 16 bits carry; a block with another `CBW` keeps the handle as an abstract operand
(R96, log 9). -/
def fitsHandle (handle : Handle) : Bool := decide (handle < 65536)

/-- The command can be written as a command word. -/
def Instr.wf : Instr → Bool
  | .pindir id _ => fitsByte id
  | .pinset id _ => fitsByte id
  | .pinget id => fitsByte id
  | .ppdir port pin _ => fitsByte port && fitsByte pin
  | .ppset port pin _ => fitsByte port && fitsByte pin
  | .pptgl port pin => fitsByte port && fitsByte pin
  | .ppget port pin => fitsByte port && fitsByte pin
  | .portdir port _ => fitsByte port
  | .portset port _ => fitsByte port
  | .t0init _ _ _ _ _ _ => true
  | .t0duty _ => true
  | .t0cb handle => fitsHandle handle

end Sys2Proof
end

