-- ==== Sys2Proof/Decode.lean ====
section
/-! DEFINITION. The command encoding (30_encoding.md): the six positions of a command word, the opcode table
R97, the decoder (R99, total), the encoder, and the textual form (R105). -/

namespace Sys2Proof

/-- Why a command word is reserved: the encoding part of R100's closed list, case by case R101. -/
inductive Reserved
  /-- R101 (a): the opcode is not one of the twelve. -/
  | unknownOpcode
  /-- R101 (b): a known opcode with a nonzero should-be-zero bit. -/
  | nonzeroSbz
  /-- R101 (c): T0INIT with `mode = 3`. -/
  | reservedMode
  /-- R101 (d): PINDIR or PPDIR with `dir >= 3`. -/
  | reservedDir
  /-- R101 (e): PINSET or PPSET with `level >= 2`. -/
  | reservedLevel
  deriving DecidableEq, Repr

/-- The six 8-bit positions of a command word (R90). -/
structure Positions where
  op : Byte
  a : Byte
  b : Byte
  c : Byte
  d : Byte
  e : Byte
  deriving DecidableEq, Repr

/-- R90: `OP` 47:40, `A` 39:32, `B` 31:24, `C` 23:16, `D` 15:8, `E` 7:0. -/
def positions (w : CmdWord) : Positions :=
  { op := w.extractLsb' 40 8, a := w.extractLsb' 32 8, b := w.extractLsb' 24 8
    c := w.extractLsb' 16 8, d := w.extractLsb' 8 8, e := w.extractLsb' 0 8 }

/-- The command word with the given positions (R90), `OP` the most significant. -/
def assemble (p : Positions) : CmdWord :=
  p.op ++ p.a ++ p.b ++ p.c ++ p.d ++ p.e

/-- The rows of the opcode table by mnemonic (R97). -/
inductive Op
  | pindir | pinset | pinget
  | ppdir | ppset | pptgl | ppget | portdir | portset
  | t0init | t0duty | t0cb
  deriving DecidableEq, Repr

/-- One row of the opcode table: a word spells the command iff `w & mask = value` (R97). -/
structure OpRow where
  op : Op
  mask : CmdWord
  value : CmdWord
  deriving DecidableEq, Repr

/-- The opcode table, its `mask` and `match` columns (R97). -/
def opcodeTable : List OpRow :=
  [ ⟨.pindir,  0xFF0000FFFFFF, 0x100000000000⟩,
    ⟨.pinset,  0xFF0000FFFFFF, 0x110000000000⟩,
    ⟨.pinget,  0xFF00FFFFFFFF, 0x120000000000⟩,
    ⟨.ppdir,   0xFF000000FFFF, 0x200000000000⟩,
    ⟨.ppset,   0xFF000000FFFF, 0x210000000000⟩,
    ⟨.pptgl,   0xFF0000FFFFFF, 0x220000000000⟩,
    ⟨.ppget,   0xFF0000FFFFFF, 0x230000000000⟩,
    ⟨.portdir, 0xFF0000FFFFFF, 0x240000000000⟩,
    ⟨.portset, 0xFF0000FFFFFF, 0x250000000000⟩,
    ⟨.t0init,  0xFFF800000000, 0x300000000000⟩,
    ⟨.t0duty,  0xFF00FFFFFFFF, 0x310000000000⟩,
    ⟨.t0cb,    0xFF0000FFFFFF, 0x320000000000⟩ ]

/-- The `OP` column of the opcode table (R97). -/
def Op.opcode : Op → Byte
  | .pindir => 0x10
  | .pinset => 0x11
  | .pinget => 0x12
  | .ppdir => 0x20
  | .ppset => 0x21
  | .pptgl => 0x22
  | .ppget => 0x23
  | .portdir => 0x24
  | .portset => 0x25
  | .t0init => 0x30
  | .t0duty => 0x31
  | .t0cb => 0x32

/-- A word spells the command of a row (R97). -/
def OpRow.spells (r : OpRow) (w : CmdWord) : Bool := w &&& r.mask == r.value

/-- The row a word spells, if any (R99, first step). -/
def rowOf (w : CmdWord) : Option OpRow := opcodeTable.find? (fun r => r.spells w)

/-- The word's `OP` position is one of the twelve opcodes (R101 (a)). -/
def knownOpcode (w : CmdWord) : Bool :=
  opcodeTable.any (fun r => (positions w).op == r.op.opcode)

/-- The number of a direction (R98). -/
def Direction.code : Direction → Byte
  | .input => 0
  | .output => 1
  | .inputWithPullup => 2

/-- The direction of a number; 3..255 are reserved (R98, R101 (d)). -/
def directionOf (b : Byte) : Except Reserved Direction :=
  if b = 0 then .ok .input
  else if b = 1 then .ok .output
  else if b = 2 then .ok .inputWithPullup
  else .error .reservedDir

/-- The number of a level (R98). -/
def Level.code : Level → Byte
  | .low => 0
  | .high => 1

/-- The level of a number; 2..255 are reserved (R98, R101 (e)). -/
def levelOf (b : Byte) : Except Reserved Level :=
  if b = 0 then .ok .low
  else if b = 1 then .ok .high
  else .error .reservedLevel

/-- The number of a mode (R98). -/
def T0Mode.code : T0Mode → BitVec 2
  | .normal => 0
  | .ctc => 1
  | .fastPwm => 2

/-- The mode of a number; 3 is reserved (R98, R101 (c)). -/
def modeOf (b : BitVec 2) : Except Reserved T0Mode :=
  if b = 0 then .ok .normal
  else if b = 1 then .ok .ctc
  else if b = 2 then .ok .fastPwm
  else .error .reservedMode

/-- Position `A` of format T: `ie` at bit 34, `mode` at bits 33:32 of the word (R94). -/
def modeByte (mode : T0Mode) (ie : Bool) : Byte := 0#5 ++ BitVec.ofBool ie ++ mode.code

/-- The operands of a word that spells the row's command, by the row's format (R91 to R96, R98). -/
def operands (op : Op) (p : Positions) : Except Reserved Instr :=
  match op with
  | .pindir => (directionOf p.b).map (fun dir => .pindir p.a.toNat dir)
  | .pinset => (levelOf p.b).map (fun level => .pinset p.a.toNat level)
  | .pinget => .ok (.pinget p.a.toNat)
  | .ppdir => (directionOf p.c).map (fun dir => .ppdir p.a.toNat p.b.toNat dir)
  | .ppset => (levelOf p.c).map (fun level => .ppset p.a.toNat p.b.toNat level)
  | .pptgl => .ok (.pptgl p.a.toNat p.b.toNat)
  | .ppget => .ok (.ppget p.a.toNat p.b.toNat)
  | .portdir => .ok (.portdir p.a.toNat p.b)
  | .portset => .ok (.portset p.a.toNat p.b)
  | .t0init =>
    (modeOf (p.a.extractLsb' 0 2)).map (fun mode => .t0init mode (p.a.getLsbD 2) p.b p.c p.d p.e)
  | .t0duty => .ok (.t0duty p.a)
  | .t0cb => .ok (.t0cb (p.a ++ p.b).toNat)

/-- The decoder, total on command words (R99): the row by mask and match, then the operands, then the
reserved operand values. Reasons are tried in that order (R101; DEDUCED, log 13). -/
def decode (w : CmdWord) : Except Reserved Instr :=
  match rowOf w with
  | some r => operands r.op (positions w)
  | none => .error (if knownOpcode w then .nonzeroSbz else .unknownOpcode)

/-- The row a command belongs to. -/
def Instr.op : Instr → Op
  | .pindir _ _ => .pindir
  | .pinset _ _ => .pinset
  | .pinget _ => .pinget
  | .ppdir _ _ _ => .ppdir
  | .ppset _ _ _ => .ppset
  | .pptgl _ _ => .pptgl
  | .ppget _ _ => .ppget
  | .portdir _ _ => .portdir
  | .portset _ _ => .portset
  | .t0init _ _ _ _ _ _ => .t0init
  | .t0duty _ => .t0duty
  | .t0cb _ => .t0cb

/-- An operand carried as an unsigned byte (R91, R92, R93). -/
def operandByte (n : Nat) : Byte := BitVec.ofNat 8 n

/-- The handle field of format H, `{A, B}` (R96). -/
def handleField (handle : Handle) : BitVec 16 := BitVec.ofNat 16 handle

/-- The positions `A` to `E` of a command by its format, unused ones zero (R91 to R96). -/
def Instr.fill (i : Instr) : Positions :=
  let z : Positions := ⟨i.op.opcode, 0, 0, 0, 0, 0⟩
  match i with
  | .pindir id dir => { z with a := operandByte id, b := dir.code }
  | .pinset id level => { z with a := operandByte id, b := level.code }
  | .pinget id => { z with a := operandByte id }
  | .ppdir port pin dir => { z with a := operandByte port, b := operandByte pin, c := dir.code }
  | .ppset port pin level => { z with a := operandByte port, b := operandByte pin, c := level.code }
  | .pptgl port pin => { z with a := operandByte port, b := operandByte pin }
  | .ppget port pin => { z with a := operandByte port, b := operandByte pin }
  | .portdir port val => { z with a := operandByte port, b := val }
  | .portset port val => { z with a := operandByte port, b := val }
  | .t0init mode ie clk com tick init =>
    { z with a := modeByte mode ie, b := clk, c := com, d := tick, e := init }
  | .t0duty value => { z with a := value }
  | .t0cb handle =>
    { z with a := (handleField handle).extractLsb' 8 8, b := (handleField handle).extractLsb' 0 8 }

/-- The encoder: the command word of a well-formed command. -/
def encode (i : Instr) : CmdWord := assemble i.fill

/-- The word that the opcode table's numbering gives: a command is ONE word of 48 bits, bit 0 its least
significant (R90); bits above `nbits` are zero (log 24). -/
def tableWord (nbits w : Nat) : CmdWord := BitVec.ofNat 48 (w % 2 ^ nbits)

/-- The command the decoder reads from the word with bits `w`, none where it is reserved. -/
def decodeTableWord (nbits w : Nat) : Option Instr := (decode (tableWord nbits w)).toOption

/-! ## The textual form (R105)

A text is taken as its tokens: a mnemonic and a list of operands, each a number or a symbolic name.
The characters a number is written in, decimal or hexadecimal, are not modelled (log 25). -/

/-- The symbolic names of R105. -/
inductive Symbol
  | IN | OUT | INPU
  | LOW | HIGH
  | NORMAL | CTC | FASTPWM
  | A | B | C | D
  deriving DecidableEq, Repr

/-- One operand of a textual command. -/
inductive TextOperand
  | num (n : Nat)
  | sym (x : Symbol)
  deriving DecidableEq, Repr

/-- A `dir` operand: `IN`, `OUT`, `INPU` for 0, 1, 2 (R105). -/
def textDirection : TextOperand → Option Direction
  | .sym .IN | .num 0 => some .input
  | .sym .OUT | .num 1 => some .output
  | .sym .INPU | .num 2 => some .inputWithPullup
  | _ => none

/-- A `level` operand: `LOW`, `HIGH` for 0, 1 (R105). -/
def textLevel : TextOperand → Option Level
  | .sym .LOW | .num 0 => some .low
  | .sym .HIGH | .num 1 => some .high
  | _ => none

/-- A `mode` operand: `NORMAL`, `CTC`, `FASTPWM` for 0, 1, 2 (R105). -/
def textMode : TextOperand → Option T0Mode
  | .sym .NORMAL | .num 0 => some .normal
  | .sym .CTC | .num 1 => some .ctc
  | .sym .FASTPWM | .num 2 => some .fastPwm
  | _ => none

/-- A `port` operand: `A`, `B`, `C`, `D` for 0, 1, 2, 3 (R105). -/
def textPort : TextOperand → Option Nat
  | .sym .A => some 0
  | .sym .B => some 1
  | .sym .C => some 2
  | .sym .D => some 3
  | .num n => some n
  | _ => none

/-- A plain number that fits `w` bits. -/
def textNumber (w : Nat) : TextOperand → Option (BitVec w)
  | .num n => if n < 2 ^ w then some (BitVec.ofNat w n) else none
  | .sym _ => none

/-- An `id`, `pin` or `handle` operand: a plain number. -/
def textIndex : TextOperand → Option Nat
  | .num n => some n
  | .sym _ => none

/-- The `ie` operand: 0 or 1. -/
def textFlag : TextOperand → Option Bool
  | .num 0 => some false
  | .num 1 => some true
  | _ => none

/-- The command a mnemonic and its operands spell, operands in the order of R97's column (R105);
none where an operand is missing, left over or not one the command word can carry. -/
def parseOperands : Op → List TextOperand → Option Instr
  | .pindir, [id, dir] => return .pindir (← textIndex id) (← textDirection dir)
  | .pinset, [id, level] => return .pinset (← textIndex id) (← textLevel level)
  | .pinget, [id] => return .pinget (← textIndex id)
  | .ppdir, [port, pin, dir] =>
    return .ppdir (← textPort port) (← textIndex pin) (← textDirection dir)
  | .ppset, [port, pin, level] =>
    return .ppset (← textPort port) (← textIndex pin) (← textLevel level)
  | .pptgl, [port, pin] => return .pptgl (← textPort port) (← textIndex pin)
  | .ppget, [port, pin] => return .ppget (← textPort port) (← textIndex pin)
  | .portdir, [port, val] => return .portdir (← textPort port) (← textNumber 8 val)
  | .portset, [port, val] => return .portset (← textPort port) (← textNumber 8 val)
  | .t0init, [mode, ie, clk, com, tick, init] =>
    return .t0init (← textMode mode) (← textFlag ie) (← textNumber 8 clk) (← textNumber 8 com)
      (← textNumber 8 tick) (← textNumber 8 init)
  | .t0duty, [value] => return .t0duty (← textNumber 8 value)
  | .t0cb, [handle] => return .t0cb (← textIndex handle)
  | _, _ => none

/-- The well-formed command a text spells (R105). -/
def parseText (op : Op) (args : List TextOperand) : Option Instr :=
  (parseOperands op args).filter Instr.wf

/-- The text of a command with every operand a number, in the order of R97's column (R105). -/
def Instr.textOperands : Instr → List TextOperand
  | .pindir id dir => [.num id, .num dir.code.toNat]
  | .pinset id level => [.num id, .num level.code.toNat]
  | .pinget id => [.num id]
  | .ppdir port pin dir => [.num port, .num pin, .num dir.code.toNat]
  | .ppset port pin level => [.num port, .num pin, .num level.code.toNat]
  | .pptgl port pin => [.num port, .num pin]
  | .ppget port pin => [.num port, .num pin]
  | .portdir port val => [.num port, .num val.toNat]
  | .portset port val => [.num port, .num val.toNat]
  | .t0init mode ie clk com tick init =>
    [.num mode.code.toNat, .num ie.toNat, .num clk.toNat, .num com.toNat, .num tick.toNat, .num init.toNat]
  | .t0duty value => [.num value.toNat]
  | .t0cb handle => [.num handle]

/-- The symbolic name of a direction (R105). -/
def Direction.symbol : Direction → Symbol
  | .input => .IN
  | .output => .OUT
  | .inputWithPullup => .INPU

/-- The symbolic name of a level (R105). -/
def Level.symbol : Level → Symbol
  | .low => .LOW
  | .high => .HIGH

/-- The symbolic name of a mode (R105). -/
def T0Mode.symbol : T0Mode → Symbol
  | .normal => .NORMAL
  | .ctc => .CTC
  | .fastPwm => .FASTPWM

/-- The spellings of a port number: the number, and in range its letter (R105). -/
def portSpellings (port : Nat) : List TextOperand :=
  .num port :: ([(0, Symbol.A), (1, .B), (2, .C), (3, .D)].filter (·.1 == port)).map (.sym ·.2)

/-- The spellings of a direction: its number and its name. -/
def Direction.spellings (dir : Direction) : List TextOperand := [.num dir.code.toNat, .sym dir.symbol]

/-- The spellings of a level. -/
def Level.spellings (level : Level) : List TextOperand := [.num level.code.toNat, .sym level.symbol]

/-- The spellings of a mode. -/
def T0Mode.spellings (mode : T0Mode) : List TextOperand := [.num mode.code.toNat, .sym mode.symbol]

/-- Operand by operand, in the order of R97's column, every spelling of it (R105). -/
def Instr.spellings : Instr → List (List TextOperand)
  | .pindir id dir => [[.num id], dir.spellings]
  | .pinset id level => [[.num id], level.spellings]
  | .pinget id => [[.num id]]
  | .ppdir port pin dir => [portSpellings port, [.num pin], dir.spellings]
  | .ppset port pin level => [portSpellings port, [.num pin], level.spellings]
  | .pptgl port pin => [portSpellings port, [.num pin]]
  | .ppget port pin => [portSpellings port, [.num pin]]
  | .portdir port val => [portSpellings port, [.num val.toNat]]
  | .portset port val => [portSpellings port, [.num val.toNat]]
  | .t0init mode ie clk com tick init =>
    [mode.spellings, [.num ie.toNat], [.num clk.toNat], [.num com.toNat], [.num tick.toNat], [.num init.toNat]]
  | .t0duty value => [[.num value.toNat]]
  | .t0cb handle => [[.num handle]]

end Sys2Proof
end

