-- ==== Sys2Proof/Machine/State.lean ====
section
/-! DEFINITION. The state of the machine as plain data: the components of R20, the configuration they are
read under, and what stands around the block (the commands and environment steps to come, the host's
command index, the callback invocations emitted). -/

namespace Sys2Proof.Machine

/-- A pin descriptor: an entry of the descriptor ROM, kept as a record (R34, D10). -/
structure PinDesc where
  /-- Address of the input register (`in`). -/
  inp : Nat
  /-- Address of the output register. -/
  out : Nat
  /-- Address of the direction register. -/
  dir : Nat
  /-- Bit position within the three registers, 0..7. -/
  bit : Fin 8
  deriving DecidableEq, Repr

/-- `tstate`: the state of the timer mode machine (R36, R170). -/
inductive TState
  | uninitialized
  | normal
  | ctc
  | fastPwm
  deriving DecidableEq, Repr

/-- The steps of the environment (R75, R205, R212). -/
inductive EnvStep
  /-- `ENV IN[p] <- v`: the pins put a new byte into an input register (R25). -/
  | setInput (p : Port) (v : Byte)
  /-- The counting hardware overwrites `TCNT` (R31, R220). -/
  | setCounter (v : Byte)
  /-- `EV_COMPARE`: the Timer0 compare-match event is signalled (R205). -/
  | compareMatch
  /-- `EV_OVERFLOW`: the Timer0 overflow event is signalled (R205). -/
  | overflow
  /-- `EV_RETURN`: the callback has run to completion (R212). -/
  | callbackReturn
  deriving DecidableEq, Repr

/-- One step of the block: the host presents a command, or the environment acts; nothing else (R10). -/
inductive Stimulus
  /-- The host presents a command word. -/
  | command (w : CmdWord)
  /-- The host presents T0CB with its handle as an abstract operand, the form R96 gives a block whose `CBW` is
  not the 16 bits of the word (log 9). -/
  | register (handle : Handle)
  /-- The environment acts. -/
  | environment (e : EnvStep)
  deriving DecidableEq, Repr

/-- What stands around the block. None of it is read or written by a command (R43). -/
structure Surroundings where
  /-- The stimuli not yet performed, oldest first: the commands the host presents and the choices of the
  environment (R43, R75). The MODEL's own field (DESIGN CHOICE, log 1). -/
  pending : List Stimulus
  /-- The host-side command index (R41, log 17). -/
  ci : Nat
  /-- The handles emitted by `invoke`, oldest first (R9, R210). The MODEL's own field (log 16). -/
  invocations : List Handle
  deriving DecidableEq, Repr

/-- The machine. `regs` to `resp` are the rows of R20; `ROM` is a constant, not a field (R35). -/
structure State where
  /-- The implementation parameters (R6, R43); no step changes them (log 4). -/
  cfg : Config
  /-- `DIR`, `OUT`, `IN`, `TCTRL`, `TCNT`, `TCMP`, `TIMSK` (R20). -/
  regs : RegSpace
  /-- `tstate` (R36). -/
  tstate : TState
  /-- `cb`, the callback slot: none or a handle (R37). -/
  cb : Option Handle
  /-- `in_service`: a callback has been invoked and has not returned (R38). -/
  inService : Bool
  /-- `dlatch`: the descriptor the fetch step of an indexed command holds; none is invalid (R39, log 12). -/
  dlatch : Option PinDesc
  /-- `resp`: the response to the last command, none or one bit (R40). -/
  resp : Option Bool
  /-- The host and the environment (R43). -/
  env : Surroundings
  deriving DecidableEq, Repr

/-- The model's faults. The hardware has none (R200); no state with a well-formed configuration raises
one of these, so they are safe. -/
inductive Fault
  /-- Raised by `memRead` and `memWrite` for an address that is not one of the sixteen: such an access
  "never arises" (R65). Safe (log 10). -/
  | unmappedAddress
  /-- Raised by `memWrite` for the address of an input register: the block "never issues" one (R64).
  Safe (log 11). -/
  | inputRegisterWrite
  /-- Raised by `latched` when no descriptor has been fetched: an indexed command fetches before it uses
  (R67), so this never arises. Safe (log 12). -/
  | noDescriptor
  deriving DecidableEq, Repr

/-- Why a command gets no step: the closed list of R100, and the host's `notModelled`. -/
inductive Refusal
  /-- Raised by `exec` for an instruction without a meaning; no instruction of this model. Safe. -/
  | notModelled (mnemonic : String)
  /-- Raised by `step` for a reserved command word (R100, R101). Safe: the spec gives it no meaning. -/
  | reservedWord (why : Reserved)
  /-- Raised by T0CB while a callback is in service (R177, R252): "undefined and out of scope". Safe. -/
  | callbackInService
  deriving DecidableEq, Repr

/-- Nothing presented, no command performed, no invocation emitted. -/
def Surroundings.empty : Surroundings := { pending := [], ci := 0, invocations := [] }

/-- The state after reset under a configuration (R45): the registers hold `INIT_REGS`, the rest as the
table says. Statements about reset range over every configuration. -/
def State.resetOf (cfg : Config) : State :=
  { cfg := cfg
    regs := cfg.initRegs
    tstate := .uninitialized
    cb := none
    inService := false
    dlatch := none
    resp := none
    env := .empty }

/-- The machine right after reset, under the spec's default parameters and with every register 0x00
(PRESUMED, log 4 to 8: R45 gives no register value). -/
def State.reset : State := State.resetOf Config.default

end Sys2Proof.Machine
end

