-- ==== Sys2Proof/Machine/Operands.lean ====
section
/-! DEFINITION. The operand forms: how an identifier, a port number and a pin number select a port and a bit,
and the mask operations on one byte (R8, R9, R34, R141). -/

namespace Sys2Proof.Machine

/-- `BIT(b)`, the 8-bit mask `1 << b` (R9). -/
def bit (b : Nat) : Byte := 1#8 <<< b

/-- The byte with the bits of the mask set. -/
def setBits (m v : Byte) : Byte := v ||| m

/-- The byte with the bits of the mask cleared. -/
def clearBits (m v : Byte) : Byte := v &&& ~~~m

/-- The byte with the bits of the mask inverted. -/
def toggleBits (m v : Byte) : Byte := v ^^^ m

/-- The port of a port number; 4 and more are out of range (R5, R141). -/
def portOfNumber : Nat → Option Port
  | 0 => some .A
  | 1 => some .B
  | 2 => some .C
  | 3 => some .D
  | _ => none

/-- The port of a pin identifier, `id div 8` (R34). -/
def portOfId (id : Fin 32) : Port :=
  match id.val / 8 with
  | 0 => .A
  | 1 => .B
  | 2 => .C
  | _ => .D

/-- The bit of a pin identifier, `id mod 8` (R34). -/
def bitOfId (id : Fin 32) : Fin 8 := ⟨id.val % 8, Nat.mod_lt _ (by decide)⟩

/-- The byte of a register after its pin is given a level: High sets, Low clears (R123, R143). -/
def levelBits (level : Level) (m v : Byte) : Byte :=
  match level with
  | .low => clearBits m v
  | .high => setBits m v

/-- The state of the mode machine that T0INIT enters (R170). -/
def modeState : T0Mode → TState
  | .normal => .normal
  | .ctc => .ctc
  | .fastPwm => .fastPwm

/-- The handle that a T0CB operand stands for: itself where it has `CBW` bits (R96, R177), a free value where it is
wider (log 27). -/
def handleOf (cfg : Config) (handle : Handle) : Handle :=
  if handle < 2 ^ cfg.cbw then handle else (Config.wideHandle cfg.cbw handle).toNat

/-- The callback slot a handle stands for: 0 is none (R177, D30). -/
def slotOf (handle : Handle) : Option Handle := if handle = 0 then none else some handle

end Sys2Proof.Machine
end

