-- ==== Sys2Proof/Machine/Flags.lean ====
section
/-! DEFINITION. The block has no flags (R42). This file holds the fields of its two control registers and the
computations that fill them: the control-register encoder (R171, R172) and the interrupt-enable update
(R174). -/

namespace Sys2Proof.Machine

/-- `ck = clk & 0x07` (R171). -/
def maskClk (clk : Byte) : BitVec 3 := (clk &&& 0x07).setWidth 3

/-- `cm = com & 0x03` (R171). -/
def maskCom (com : Byte) : BitVec 2 := (com &&& 0x03).setWidth 2

/-- One bit at a position of a byte. -/
def flagAt (b : Bool) (pos : Nat) : Byte := (BitVec.ofBool b).setWidth 8 <<< pos

/-- `EncTCTRL(mode, ck, cm, old)`, the new content of `TCTRL` (R172). -/
def encTctrl (cfg : Config) (mode : T0Mode) (ck : BitVec 3) (cm : BitVec 2) (old : Byte) : Byte :=
  let keep := cfg.pFocKeep && old.getLsbD cfg.focB
  let foc := match mode with | .normal => true | .ctc => keep | .fastPwm => keep
  let wlo := match mode with | .normal => false | .ctc => false | .fastPwm => true
  let whi := match mode with | .normal => false | .ctc => true | .fastPwm => true
  let c : BitVec 2 := match mode with | .normal => 0 | .ctc => cm | .fastPwm => cm
  flagAt foc cfg.focB ||| flagAt wlo cfg.wgmLoB ||| flagAt whi cfg.wgmHiB
    ||| c.setWidth 8 <<< cfg.comLsb ||| ck.setWidth 8 <<< cfg.csLsb

/-- `IEupd(t, bitpos, ie)`, the new content of `TIMSK` (R174). -/
def ieUpd (cfg : Config) (bitpos : Nat) (ie : Bool) (t : Byte) : Byte :=
  if ie then setBits (bit bitpos) t
  else if cfg.pIeAssign then clearBits (bit bitpos) t
  else t

/-! ## Fields of the control register `TCTRL` (R26) -/

/-- `FOC`, the force-output-compare bit, an ordinary stored bit (R30, log 21). -/
def focOf (cfg : Config) (tctrl : Byte) : Bool := tctrl.getLsbD cfg.focB

/-- `WGMLO`, the low waveform-generation bit (R27). -/
def wgmLoOf (cfg : Config) (tctrl : Byte) : Bool := tctrl.getLsbD cfg.wgmLoB

/-- `WGMHI`, the high waveform-generation bit (R27). -/
def wgmHiOf (cfg : Config) (tctrl : Byte) : Bool := tctrl.getLsbD cfg.wgmHiB

/-- `COM`, the 2-bit compare-output field (R28). -/
def comOf (cfg : Config) (tctrl : Byte) : BitVec 2 := tctrl.extractLsb' cfg.comLsb 2

/-- `CS`, the 3-bit clock-source field (R29). -/
def csOf (cfg : Config) (tctrl : Byte) : BitVec 3 := tctrl.extractLsb' cfg.csLsb 3

/-- The compare-output behaviours by name (R28). The block attaches no meaning to them (U5). -/
inductive CompareOutput
  | disconnected
  | reserved
  | clearOnMatch
  | setOnMatch
  deriving DecidableEq, Repr

/-- The behaviour a 2-bit compare-output field names: 0, 1, 2, 3 in the order listed (R28). -/
def compareOutputOf (com : BitVec 2) : CompareOutput :=
  if com = 0 then .disconnected
  else if com = 1 then .reserved
  else if com = 2 then .clearOnMatch
  else .setOnMatch

/-- `{WGMHI, WGMLO}` for a state of the mode machine; Uninitialized says nothing of it (R27, R36). -/
def wgmOf : TState → Option (Bool × Bool)
  | .uninitialized => none
  | .normal => some (false, false)
  | .ctc => some (true, false)
  | .fastPwm => some (true, true)

/-! ## Fields of the interrupt-mask register `TIMSK` (R33) -/

/-- `OCIE`, the compare-match interrupt enable. -/
def ocieOf (cfg : Config) (timsk : Byte) : Bool := timsk.getLsbD cfg.ocieB

/-- `TOIE`, the overflow interrupt enable. -/
def toieOf (cfg : Config) (timsk : Byte) : Bool := timsk.getLsbD cfg.toieB

end Sys2Proof.Machine
end

