-- ==== Sys2Proof/Machine/Ops.lean ====
section
/-! DEFINITION. The named operations: registers by name and by address (R62 to R65), the descriptor ROM and its
fetch step (R34, R66, R67), the pin operations both GPIO families share, responses (R40), and the entry
into and return from a callback (R206 to R212). -/

namespace Sys2Proof.Machine

/-! ## Registers by name -/

/-- The content of a register. -/
def regRead (x : RegSpace) : Reg → Byte
  | .dir p => x.dir.get p
  | .out p => x.out.get p
  | .inp p => x.inp.get p
  | .tctrl => x.tctrl
  | .tcnt => x.tcnt
  | .tcmp => x.tcmp
  | .timsk => x.timsk

/-- The register space with one register replaced. -/
def regWrite (x : RegSpace) (r : Reg) (v : Byte) : RegSpace :=
  match r with
  | .dir p => { x with dir := x.dir.set p v }
  | .out p => { x with out := x.out.set p v }
  | .inp p => { x with inp := x.inp.set p v }
  | .tctrl => { x with tctrl := v }
  | .tcnt => { x with tcnt := v }
  | .tcmp => { x with tcmp := v }
  | .timsk => { x with timsk := v }

/-- Reading a register of the machine. -/
def readReg (s : State) (r : Reg) : Byte := regRead s.regs r

/-- Replacing a register of the machine; the rest is unchanged. -/
def writeReg (s : State) (r : Reg) (v : Byte) : State := { s with regs := regWrite s.regs r v }

/-- The environment writes input registers, the block never does (R25, R64). -/
def isInput : Reg → Bool
  | .inp _ => true
  | .dir _ => false
  | .out _ => false
  | .tctrl => false
  | .tcnt => false
  | .tcmp => false
  | .timsk => false

/-! ## Registers by address -/

/-- The register at an address, if the address is one of the sixteen (R60, R65). -/
def regAt (cfg : Config) (addr : Nat) : Option Reg := Reg.all.find? (fun r => cfg.addr r == addr)

/-- `MemRead(addr, 1)` (R63). A read changes nothing. -/
def memRead (s : State) (addr : Nat) : Except Fault Byte :=
  match regAt s.cfg addr with
  | some r => .ok (readReg s r)
  | none => .error .unmappedAddress

/-- `MemWrite(addr, 1, v)` (R64). -/
def memWrite (s : State) (addr : Nat) (v : Byte) : Except Fault State :=
  match regAt s.cfg addr with
  | some r => if isInput r then .error .inputRegisterWrite else .ok (writeReg s r v)
  | none => .error .unmappedAddress

/-- A read-modify-write: one `MemRead`, a mask operation, one `MemWrite` of the same address (R70). -/
def memModify (s : State) (addr : Nat) (f : Byte → Byte) : Except Fault State := do
  let v ← memRead s addr
  memWrite s addr (f v)

/-! ## The descriptor ROM -/

/-- `ROM[id]` (R34): a constant, a function of the address parameters (R35). -/
def rom (cfg : Config) (id : Fin 32) : PinDesc :=
  { inp := cfg.aIn.get (portOfId id)
    out := cfg.aOut.get (portOfId id)
    dir := cfg.aDir.get (portOfId id)
    bit := bitOfId id }

/-- `RomFetch(id)`: the fetch step, which materializes the descriptor in `dlatch` (R39, R66). -/
def romFetch (s : State) (id : Fin 32) : State := { s with dlatch := some (rom s.cfg id) }

/-- The use step's access to the fetched descriptor (R67). -/
def latched (s : State) : Except Fault PinDesc :=
  match s.dlatch with
  | some d => .ok d
  | none => .error .noDescriptor

/-- The descriptor is discarded when the command ends (R39, R121). -/
def dropLatch (s : State) : State := { s with dlatch := none }

/-! ## Responses -/

/-- `resp <- v` (R9, R40). -/
def respond (s : State) (v : Option Bool) : State := { s with resp := v }

/-- The outcome of a command whose accesses are done. -/
def outcome : Except Fault State → Host.Outcome State Fault Refusal
  | .ok s => .next s
  | .error f => .fault f

/-! ## The pin operations -/

/-- The direction of the pins of a mask: Input clears the direction bit, Output sets it, InputWithPullup
clears it and then sets the output bit (R122, R142, D11, D14). -/
def setDirection (dir : Direction) (aDir aOut : Nat) (m : Byte) (s : State) : Except Fault State :=
  match dir with
  | .input => memModify s aDir (clearBits m)
  | .output => memModify s aDir (setBits m)
  | .inputWithPullup => do
    let s ← memModify s aDir (clearBits m)
    memModify s aOut (setBits m)

/-- The output level of the pins of a mask (R123, R143). -/
def setLevel (level : Level) (aOut : Nat) (m : Byte) (s : State) : Except Fault State :=
  memModify s aOut (levelBits level m)

/-- The response of a read: the one bit of the input register (R124, R145). -/
def readPin (aIn : Nat) (b : Fin 8) (s : State) : Except Fault State := do
  let v ← memRead s aIn
  return respond s (some (v.getLsbD b))

/-- The frame of every indexed command (R121): range check with its response, fetch, use, discard. -/
def indexed (id : Nat) (outOfRange : Option Bool) (use : PinDesc → State → Except Fault State)
    (s : State) : Host.Outcome State Fault Refusal :=
  if h : id < 32 then
    outcome do
      let s := romFetch s ⟨id, h⟩
      let d ← latched s
      let s ← use d s
      return dropLatch s
  else .next (respond s outOfRange)

/-- The frame of every port-level command on a single pin (R141): both range checks, then use. -/
def portPin (port pin : Nat) (outOfRange : Option Bool)
    (use : Port → Fin 8 → State → Except Fault State) (s : State) :
    Host.Outcome State Fault Refusal :=
  match portOfNumber port with
  | some p => if h : pin < 8 then outcome (use p ⟨pin, h⟩ s) else .next (respond s outOfRange)
  | none => .next (respond s outOfRange)

/-- The frame of the whole-port commands (R141): one range check, then use; the response is none. -/
def wholePort (port : Nat) (use : Port → State → Except Fault State) (s : State) :
    Host.Outcome State Fault Refusal :=
  match portOfNumber port with
  | some p => outcome (use p (respond s none))
  | none => .next (respond s none)

/-! ## Callback entry and return (the block's only interrupt mechanism) -/

/-- `EV_COMPARE` may be delivered: its enable is set and no callback is in service (R206). -/
def admitsCompare (s : State) : Bool := ocieOf s.cfg s.regs.timsk && !s.inService

/-- `EV_OVERFLOW` may be delivered: its enable is set and no callback is in service (R206). -/
def admitsOverflow (s : State) : Bool := toieOf s.cfg s.regs.timsk && !s.inService

/-- `invoke(h)`: the block emits the handle (R9, R210). -/
def invoke (s : State) (h : Handle) : State :=
  { s with env := { s.env with invocations := s.env.invocations ++ [h] } }

/-- Delivery of an admitted event, the same for both sources: invoke the stored callback if there is one,
else do nothing. Nothing is saved and no register is read or written (R207, R210). -/
def deliver (s : State) : State :=
  match s.cb with
  | none => s
  | some h => { invoke s h with inService := true }

/-- Return from the callback: the whole effect is `in_service <- false` (R212). -/
def callbackReturn (s : State) : State := { s with inService := false }

end Sys2Proof.Machine
end

