-- ==== Sys2Proof/Machine/IndexedGpio.lean ====
section
/-! DEFINITION. The indexed GPIO commands: PINDIR, PINSET, PINGET (40_indexed_gpio.md). -/

namespace Sys2Proof.Machine

/-- PINDIR: set the direction of one pin (R122). -/
def execPindir (id : Nat) (dir : Direction) (s : State) : Host.Outcome State Fault Refusal :=
  indexed id none (fun d s => setDirection dir d.dir d.out (bit d.bit) (respond s none)) s

/-- PINSET: set the output level of one pin (R123). -/
def execPinset (id : Nat) (level : Level) (s : State) : Host.Outcome State Fault Refusal :=
  indexed id none (fun d s => setLevel level d.out (bit d.bit) (respond s none)) s

/-- PINGET: read the input level of one pin; out of range answers the sentinel 0 (R124). -/
def execPinget (id : Nat) (s : State) : Host.Outcome State Fault Refusal :=
  indexed id (some false) (fun d s => readPin d.inp d.bit s) s

end Sys2Proof.Machine
end

