-- ==== Sys2Proof/Machine/PortGpio.lean ====
section
/-! DEFINITION. The port-level GPIO commands: PPDIR, PPSET, PPTGL, PPGET, PORTDIR, PORTSET (41_port_gpio.md).
They reach the registers by the port's addresses and never the ROM (R61, R140). -/

namespace Sys2Proof.Machine

/-- PPDIR: set the direction of one pin of a named port (R142). -/
def execPpdir (port pin : Nat) (dir : Direction) (s : State) : Host.Outcome State Fault Refusal :=
  portPin port pin none
    (fun p b s => setDirection dir (s.cfg.addr (.dir p)) (s.cfg.addr (.out p)) (bit b) (respond s none)) s

/-- PPSET: set the output level of one pin of a named port (R143). -/
def execPpset (port pin : Nat) (level : Level) (s : State) : Host.Outcome State Fault Refusal :=
  portPin port pin none
    (fun p b s => setLevel level (s.cfg.addr (.out p)) (bit b) (respond s none)) s

/-- PPTGL: invert the output level of one pin of a named port (R144). -/
def execPptgl (port pin : Nat) (s : State) : Host.Outcome State Fault Refusal :=
  portPin port pin none
    (fun p b s => memModify (respond s none) (s.cfg.addr (.out p)) (toggleBits (bit b))) s

/-- PPGET: read the input level of one pin of a named port; out of range answers the sentinel 0 (R145). -/
def execPpget (port pin : Nat) (s : State) : Host.Outcome State Fault Refusal :=
  portPin port pin (some false) (fun p b s => readPin (s.cfg.addr (.inp p)) b s) s

/-- PORTDIR: write the direction register of a port (R146). -/
def execPortdir (port : Nat) (val : Byte) (s : State) : Host.Outcome State Fault Refusal :=
  wholePort port (fun p s => memWrite s (s.cfg.addr (.dir p)) val) s

/-- PORTSET: write the output register of a port (R147). -/
def execPortset (port : Nat) (val : Byte) (s : State) : Host.Outcome State Fault Refusal :=
  wholePort port (fun p s => memWrite s (s.cfg.addr (.out p)) val) s

end Sys2Proof.Machine
end

