-- ==== Sys2Proof/Machine/Timer0.lean ====
section
/-! DEFINITION. The Timer0 commands: T0INIT, T0DUTY, T0CB (42_timer0.md). -/

namespace Sys2Proof.Machine

/-- The old `TCTRL` that T0INIT needs: read only when `P_FOC_KEEP` is true and the mode is CTC or FastPWM,
otherwise 0 and unused (R173, C9). -/
def oldTctrl (mode : T0Mode) (s : State) : Except Fault Byte :=
  match mode with
  | .normal => .ok 0x00
  | .ctc => if s.cfg.pFocKeep then memRead s (s.cfg.addr .tctrl) else .ok 0x00
  | .fastPwm => if s.cfg.pFocKeep then memRead s (s.cfg.addr .tctrl) else .ok 0x00

/-- T0INIT's write of `TCMP`: the tick value in CTC and FastPWM, none in Normal (R173 (a)). -/
def initCompare (mode : T0Mode) (tick : Byte) (s : State) : Except Fault State :=
  match mode with
  | .normal => .ok s
  | .ctc => memWrite s (s.cfg.addr .tcmp) tick
  | .fastPwm => memWrite s (s.cfg.addr .tcmp) tick

/-- T0INIT's update of `TIMSK`: the overflow enable in Normal, the compare-match enable in CTC, no access
in FastPWM (R173 (b), (c)). -/
def initEnable (mode : T0Mode) (ie : Bool) (s : State) : Except Fault State :=
  match mode with
  | .normal => memModify s (s.cfg.addr .timsk) (ieUpd s.cfg s.cfg.toieB ie)
  | .ctc => memModify s (s.cfg.addr .timsk) (ieUpd s.cfg s.cfg.ocieB ie)
  | .fastPwm => .ok s

/-- T0INIT: initialise Timer0 from a configuration record; `TCNT`, `TCMP`, `TIMSK`, `TCTRL` in that order
(R173, D28). -/
def execT0init (mode : T0Mode) (ie : Bool) (clk com tick init : Byte) (s : State) :
    Host.Outcome State Fault Refusal :=
  outcome do
    let old ← oldTctrl mode s
    let s ← memWrite s (s.cfg.addr .tcnt) init
    let s ← initCompare mode tick s
    let s ← initEnable mode ie s
    let s ← memWrite s (s.cfg.addr .tctrl) (encTctrl s.cfg mode (maskClk clk) (maskCom com) old)
    return respond { s with tstate := modeState mode } none

/-- T0DUTY: rewrite the compare register, in every state of the mode machine (R176). -/
def execT0duty (value : Byte) (s : State) : Host.Outcome State Fault Refusal :=
  outcome (memWrite (respond s none) (s.cfg.addr .tcmp) value)

/-- T0CB: fill the callback slot; refused while a callback is in service (R177). -/
def execT0cb (handle : Handle) (s : State) : Host.Outcome State Fault Refusal :=
  if s.inService then .refused .callbackInService
  else .next (respond { s with cb := slotOf (handleOf s.cfg handle) } none)

end Sys2Proof.Machine
end

