-- ==== Sys2Proof/Machine/Dispatch.lean ====
section
/-! DEFINITION. One arm per command. -/

namespace Sys2Proof.Machine

def exec (i : Instr) (s : State) : Host.Outcome State Fault Refusal :=
  match i with
  | .pindir id dir => Sys2Proof.Machine.execPindir id dir s
  | .pinset id level => Sys2Proof.Machine.execPinset id level s
  | .pinget id => Sys2Proof.Machine.execPinget id s
  | .ppdir port pin dir => Sys2Proof.Machine.execPpdir port pin dir s
  | .ppset port pin level => Sys2Proof.Machine.execPpset port pin level s
  | .pptgl port pin => Sys2Proof.Machine.execPptgl port pin s
  | .ppget port pin => Sys2Proof.Machine.execPpget port pin s
  | .portdir port val => Sys2Proof.Machine.execPortdir port val s
  | .portset port val => Sys2Proof.Machine.execPortset port val s
  | .t0init mode ie clk com tick init => Sys2Proof.Machine.execT0init mode ie clk com tick init s
  | .t0duty value => Sys2Proof.Machine.execT0duty value s
  | .t0cb handle => Sys2Proof.Machine.execT0cb handle s

end Sys2Proof.Machine
end

