-- ==== Sys2Proof/Machine/Environment.lean ====
section
/-! DEFINITION. The steps of the environment and the order of steps: input changes, counting, the two timer
events, the callback's return (60_exceptions.md), and the next stimulus of the list (R10, R75). -/

namespace Sys2Proof.Machine

/-- An input register takes a new byte; nothing else changes (R25). -/
def setInput (p : Port) (v : Byte) (s : State) : State := writeReg s (.inp p) v

/-- The counting hardware overwrites `TCNT`; nothing else changes (R31, R220). -/
def setCounter (v : Byte) (s : State) : State := writeReg s .tcnt v

/-- `EV_COMPARE`: delivered if admitted. A signal that is not admitted is no step of the block and leaves no
pending bit (R206, R207, R208; DESIGN CHOICE, log 15). -/
def signalCompare (s : State) : State := if admitsCompare s then deliver s else s

/-- `EV_OVERFLOW`: as `signalCompare`, under the overflow enable. -/
def signalOverflow (s : State) : State := if admitsOverflow s then deliver s else s

/-- `EV_RETURN`: admitted only while a callback is in service (R212). -/
def signalReturn (s : State) : State := if s.inService then callbackReturn s else s

/-- One step of the environment (R75). -/
def environmentStep (e : EnvStep) (s : State) : State :=
  match e with
  | .setInput p v => setInput p v s
  | .setCounter v => setCounter v s
  | .compareMatch => signalCompare s
  | .overflow => signalOverflow s
  | .callbackReturn => signalReturn s

/-- The next stimulus, and the machine with it taken off the list; a command advances the host's command
index by 1 (R41), an environment step does not. None when nothing is presented. -/
def nextStimulus (s : State) : Option (Stimulus × State) :=
  match s.env.pending with
  | [] => none
  | .command w :: rest =>
    some (.command w, { s with env := { s.env with pending := rest, ci := s.env.ci + 1 } })
  | .register handle :: rest =>
    some (.register handle, { s with env := { s.env with pending := rest, ci := s.env.ci + 1 } })
  | .environment e :: rest =>
    some (.environment e, { s with env := { s.env with pending := rest } })

/-- The machine when nothing is presented: the block has no step and stays as it is
(DESIGN CHOICE, log 2). -/
def idle (s : State) : State := s

/-- The machine with a command word placed where the next step takes it (log 3). -/
def presentNext (w : CmdWord) (s : State) : State :=
  { s with env := { s.env with pending := .command w :: s.env.pending } }

end Sys2Proof.Machine
end

