-- ==== Sys2Proof/Machine/Step.lean ====
section
/-! DEFINITION. One step of the machine: the next stimulus, a command or a step of the environment (R10). -/

namespace Sys2Proof.Machine

/-- One step. A command word is decoded and performed, or refused where it is reserved (R99, R100). -/
def step (s : State) : Host.Outcome State Fault Refusal :=
  match nextStimulus s with
  | none => .next (idle s)
  | some (.command w, s') =>
    match decode w with
    | .ok i => exec i s'
    | .error why => .refused (.reservedWord why)
  | some (.register handle, s') => exec (.t0cb handle) s'
  | some (.environment e, s') => .next (environmentStep e s')

/-- `s` with the command of the word `w` presented next, before anything that waits. -/
def State.withFetchWord (s : State) (nbits w : Nat) : State := presentNext (tableWord nbits w) s

end Sys2Proof.Machine
end

