-- ==== Sys2Proof/Safety.lean ====
section
/-! DEFINITION. What a claim calls a good state and a safe run. -/

namespace Sys2Proof.Machine

/-- The invariant of the block. `wfCfg` is R6's constraint on the parameters; the other fields formalise
rules on the state that every step keeps. -/
structure State.Inv (s : State) : Prop where
  /-- The parameters meet R6. -/
  wfCfg : s.cfg.wf = true
  /-- No descriptor survives the command that fetched it (R39). -/
  latchEmpty : s.dlatch = none
  /-- A handle in the slot is not 0, the encoding of none (R37). -/
  slotNonzero : s.cb ≠ some 0
  /-- A handle in the slot has `CBW` bits (R37). -/
  slotWidth : ∀ h, s.cb = some h → h < 2 ^ s.cfg.cbw
  /-- `in_service` implies that there is a callback (R44 (c); T0CB is refused meanwhile, R177). -/
  serviceHasCallback : s.inService = true → s.cb.isSome = true
  /-- After a T0INIT, `{WGMHI, WGMLO}` of `TCTRL` is the encoding of `tstate` (R36). -/
  wgmMatches : ∀ m, wgmOf s.tstate = some m →
    (wgmHiOf s.cfg s.regs.tctrl, wgmLoOf s.cfg s.regs.tctrl) = m
  /-- In Normal mode the force-output-compare bit is set and the output disconnected (R170's table). -/
  normalFields : s.tstate = .normal →
    focOf s.cfg s.regs.tctrl = true ∧ comOf s.cfg s.regs.tctrl = 0

/-- The machine after reset under a configuration, with a sequence of stimuli to come. -/
def State.started (cfg : Config) (stimuli : List Stimulus) : State :=
  { State.resetOf cfg with env := { Surroundings.empty with pending := stimuli } }

/-- An outcome that is no fault. -/
def NoFault (o : Host.Outcome State Fault Refusal) : Prop := ∀ f, o ≠ .fault f

/-- The commands of a list, one after the other; the first fault or refusal ends it. -/
def execAll : List Instr → State → Host.Outcome State Fault Refusal
  | [], s => .next s
  | i :: rest, s =>
    match exec i s with
    | .next t => execAll rest t
    | .fault f => .fault f
    | .refused r => .refused r

/-! ## Vocabulary of the claims -/

/-- The identifier of pin `b` of port `p`: `identifier = port*8 + bit` (R8, R22). -/
def pinId (p : Port) (b : Fin 8) : Nat := 8 * p.number + b.val

/-- The pin identifier of an indexed command (R122 to R124). -/
def indexedId : Instr → Option Nat
  | .pindir id _ => some id
  | .pinset id _ => some id
  | .pinget id => some id
  | .ppdir _ _ _ => none
  | .ppset _ _ _ => none
  | .pptgl _ _ => none
  | .ppget _ _ => none
  | .portdir _ _ => none
  | .portset _ _ => none
  | .t0init _ _ _ _ _ _ => none
  | .t0duty _ => none
  | .t0cb _ => none

/-- The port number of a port-level command, and its pin number where it has one (R142 to R147). -/
def portLevel : Instr → Option (Nat × Option Nat)
  | .pindir _ _ => none
  | .pinset _ _ => none
  | .pinget _ => none
  | .ppdir port pin _ => some (port, some pin)
  | .ppset port pin _ => some (port, some pin)
  | .pptgl port pin => some (port, some pin)
  | .ppget port pin => some (port, some pin)
  | .portdir port _ => some (port, none)
  | .portset port _ => some (port, none)
  | .t0init _ _ _ _ _ _ => none
  | .t0duty _ => none
  | .t0cb _ => none

/-- The port-level command on the pin of an indexed command, `port = id div 8`, `pin = id mod 8`, with the
same argument (R125); a command that is not indexed is its own. -/
def directForm : Instr → Instr
  | .pindir id dir => .ppdir (id / 8) (id % 8) dir
  | .pinset id level => .ppset (id / 8) (id % 8) level
  | .pinget id => .ppget (id / 8) (id % 8)
  | .ppdir port pin dir => .ppdir port pin dir
  | .ppset port pin level => .ppset port pin level
  | .pptgl port pin => .pptgl port pin
  | .ppget port pin => .ppget port pin
  | .portdir port val => .portdir port val
  | .portset port val => .portset port val
  | .t0init mode ie clk com tick init => .t0init mode ie clk com tick init
  | .t0duty value => .t0duty value
  | .t0cb handle => .t0cb handle

/-- R20's column "written by": the commands that may change a register. -/
def mayWrite : Op → Reg → Bool
  | .pindir, .dir _ | .ppdir, .dir _ | .portdir, .dir _ => true
  | .pindir, .out _ | .pinset, .out _ | .ppdir, .out _ | .ppset, .out _ | .pptgl, .out _
  | .portset, .out _ => true
  | .t0init, .tctrl | .t0init, .tcnt | .t0init, .tcmp | .t0init, .timsk => true
  | .t0duty, .tcmp => true
  | _, _ => false

/-- The states agree on the parameters and on the twelve port registers. -/
def SamePorts (s t : State) : Prop :=
  s.cfg = t.cfg ∧ ∀ p, readReg s (.dir p) = readReg t (.dir p) ∧
    readReg s (.out p) = readReg t (.out p) ∧ readReg s (.inp p) = readReg t (.inp p)

/-- The eight pins of a port, 0 to 7, each with the bit of a byte that belongs to it (R149). -/
def pinsOf (v : Byte) : List (Nat × Bool) := (List.range 8).map (fun b => (b, v.getLsbD b))

end Sys2Proof.Machine
end

