-- ==== Sys2Proof/Certificates/Slice0/Obligations.lean ====
section
/-! DEFINITION. The statements for the provers. Each holds for every well-formed configuration where it needs
one (`s.cfg.wf`), so no statement rests on a default of 92_eei_decisions.md. -/

open Sys2Proof Sys2Proof.Machine

/-! ## Encoding -/

/-- Every well-formed command is what the decoder reads from its own word (R90 to R99). The formats and opcodes
are the spec's own decisions D1, D2, D4 to D6, D22, D30. -/
def Obligations.DecodeOfEncodeIsTheCommand : Prop :=
  ∀ i : Instr, i.wf = true → decode (encode i) = .ok i

/-- A word has one meaning: an accepted word is the encoding of the well-formed command it decodes to. The
formats and opcodes are the spec's own decisions D1, D2, D4 to D6, D22, D30. -/
def Obligations.EncodeOfDecodeIsTheWord : Prop :=
  ∀ (w : CmdWord) (i : Instr), decode w = .ok i → i.wf = true ∧ encode i = w

/-- R101: the reserved words are exactly its cases (a) to (e), each with its reason. The reserved words are the
spec's decisions D3, D5, D6, D22, D41; which reason a word of two cases gets is the model's reading (log 13).
-/
def Obligations.ReservedWordsAreExactlyTheListed : Prop :=
  (∀ w : CmdWord, decode w = .error .unknownOpcode ↔
    w.extractLsb' 40 8 ∉ ([0x10, 0x11, 0x12, 0x20, 0x21, 0x22, 0x23, 0x24, 0x25, 0x30, 0x31, 0x32] :
      List Byte)) ∧
  decode 0x000000000000 = .error .unknownOpcode ∧ decode 0xFFFFFFFFFFFF = .error .unknownOpcode ∧
  (∀ w : CmdWord, decode w = .error .nonzeroSbz ↔
    ∃ r ∈ opcodeTable, r.op.opcode = w.extractLsb' 40 8 ∧ w &&& r.mask ≠ r.value) ∧
  (∀ w : CmdWord, decode w = .error .reservedMode ↔
    w &&& 0xFFF800000000 = 0x300000000000 ∧ w.extractLsb' 32 2 = 3) ∧
  (∀ w : CmdWord, decode w = .error .reservedDir ↔
    (w &&& 0xFF0000FFFFFF = 0x100000000000 ∧ 3 ≤ (w.extractLsb' 24 8).toNat) ∨
    (w &&& 0xFF000000FFFF = 0x200000000000 ∧ 3 ≤ (w.extractLsb' 16 8).toNat)) ∧
  (∀ w : CmdWord, decode w = .error .reservedLevel ↔
    (w &&& 0xFF0000FFFFFF = 0x110000000000 ∧ 2 ≤ (w.extractLsb' 24 8).toNat) ∨
    (w &&& 0xFF000000FFFF = 0x210000000000 ∧ 2 ≤ (w.extractLsb' 16 8).toNat)) ∧
  decode 0x102807000000 = .error .reservedDir

/-- R97: the twelve match and mask pairs are pairwise exclusive, and a word that spells a row's command carries
that row's opcode. The table is the spec's decision D2. -/
def Obligations.OpcodeRowsAreExclusive : Prop :=
  ∀ (w : CmdWord) (r q : OpRow), r ∈ opcodeTable → q ∈ opcodeTable →
    w &&& r.mask = r.value → w &&& q.mask = q.value →
    r = q ∧ w.extractLsb' 40 8 = r.op.opcode

/-- The words of section 2.2 of the test vectors decode to their commands (one a row of R97). The words rest on
the spec's decisions D1, D2. -/
def Obligations.SampleWordsDecode : Prop :=
  decode 0x100B02000000 = .ok (.pindir 11 .inputWithPullup) ∧
  decode 0x111001000000 = .ok (.pinset 16 .high) ∧
  decode 0x121F00000000 = .ok (.pinget 31) ∧
  decode 0x200307010000 = .ok (.ppdir 3 7 .output) ∧
  decode 0x210000000000 = .ok (.ppset 0 0 .low) ∧
  decode 0x220307000000 = .ok (.pptgl 3 7) ∧
  decode 0x230007000000 = .ok (.ppget 0 7) ∧
  decode 0x2402F0000000 = .ok (.portdir 2 0xF0) ∧
  decode 0x2502A5000000 = .ok (.portset 2 0xA5) ∧
  decode 0x300405039910 = .ok (.t0init .normal true 5 3 0x99 0x10) ∧
  decode 0x313200000000 = .ok (.t0duty 50) ∧
  decode 0x320123000000 = .ok (.t0cb 0x0123)

/-- R105: a text spells a command exactly if the command is well formed, the mnemonic is its own, and each
operand is one of that operand's spellings: the number, or for a direction, level, mode or port in range its
symbolic name. The text in numbers is one such text. The texts are the spec's decision D46; that texts are
taken as tokens is the model's choice (log 25). -/
def Obligations.TextOfCommandSpellsIt : Prop :=
  (∀ (op : Op) (args : List TextOperand) (i : Instr), parseText op args = some i ↔
    i.wf = true ∧ i.op = op ∧ List.Forall₂ (fun a choices => a ∈ choices) args i.spellings) ∧
  (∀ i : Instr, i.wf = true → parseText i.op i.textOperands = some i)

/-! ## The register space and the descriptor ROM -/

/-- R63, R65: `MemRead` answers the register's content at each of the sixteen addresses; any other address is
the model's fault `unmappedAddress`, for reads and writes (log 10). That an access elsewhere, which never
arises, is a fault is the model's choice (log 10). -/
def Obligations.MemReadAnswersTheRegister : Prop :=
  (∀ (s : State) (r : Reg), s.cfg.wf = true → memRead s (s.cfg.addr r) = .ok (readReg s r)) ∧
  (∀ (s : State) (a : Nat) (v : Byte), (∀ r, s.cfg.addr r ≠ a) →
    memRead s a = .error .unmappedAddress ∧ memWrite s a v = .error .unmappedAddress)

/-- R64: `MemWrite` replaces the whole register; a later read of that address answers the value written,
every other address answers what it did, and nothing but the register space changes. -/
def Obligations.MemWriteReplacesTheRegister : Prop :=
  ∀ (s : State) (r : Reg) (v : Byte), s.cfg.wf = true → (∀ p, r ≠ .inp p) →
    ∃ t, memWrite s (s.cfg.addr r) v = .ok t ∧ memRead t (s.cfg.addr r) = .ok v ∧
      (∀ q, q ≠ r → memRead t (s.cfg.addr q) = memRead s (s.cfg.addr q)) ∧
      t = { s with regs := t.regs }

/-- R34: the entry of identifier `8*p + b` holds the addresses of port `p`'s three registers and `b`. That an
entry is a record is the spec's decision D10. -/
def Obligations.RomFollowsThePairing : Prop :=
  ∀ (cfg : Config) (id : Fin 32) (p : Port) (b : Fin 8), id.val = pinId p b →
    rom cfg id = { inp := cfg.aIn.get p, out := cfg.aOut.get p, dir := cfg.aDir.get p, bit := b }

/-- R44 (a): the three addresses of an entry are three distinct members of the register space. The spec marks
this invariant as derived. -/
def Obligations.RomAddressesAreDistinctRegisters : Prop :=
  ∀ (cfg : Config) (id : Fin 32), cfg.wf = true →
    (rom cfg id).inp ≠ (rom cfg id).out ∧ (rom cfg id).inp ≠ (rom cfg id).dir ∧
    (rom cfg id).out ≠ (rom cfg id).dir ∧
    (∃ r, regAt cfg (rom cfg id).inp = some r) ∧ (∃ r, regAt cfg (rom cfg id).out = some r) ∧
    (∃ r, regAt cfg (rom cfg id).dir = some r) ∧
    (rom cfg id).inp < 2 ^ cfg.aw ∧ (rom cfg id).out < 2 ^ cfg.aw ∧ (rom cfg id).dir < 2 ^ cfg.aw

/-- R35: no command, no event and no environment step changes the ROM (nor any other parameter, R43); it
is a function of the address parameters; `MemWrite` reaches no entry of it, and what `MemRead` answers is the
content of a register. -/
def Obligations.NoStepChangesTheRom : Prop :=
  (∀ s t : State, step s = .next t → t.cfg = s.cfg ∧ ∀ id, rom t.cfg id = rom s.cfg id) ∧
  (∀ (s t : State) (a : Nat) (v : Byte), memWrite s a v = .ok t →
    ∀ id, rom t.cfg id = rom s.cfg id) ∧
  (∀ (s : State) (a : Nat) (v : Byte), memRead s a = .ok v →
    ∃ r, s.cfg.addr r = a ∧ v = readReg s r) ∧
  (∀ cfg cfg' : Config, cfg.aIn = cfg'.aIn → cfg.aOut = cfg'.aOut → cfg.aDir = cfg'.aDir →
    ∀ id, rom cfg id = rom cfg' id)

/-! ## Indexed GPIO -/

/-- PINDIR in range (R122): Input clears the direction bit, Output sets it, InputWithPullup clears it and
sets the output bit; the output bit is otherwise kept; the response is none. -/
def Obligations.PindirSetsTheDirection : Prop :=
  ∀ (s : State) (p : Port) (b : Fin 8) (dir : Direction), s.cfg.wf = true →
    ∃ t, exec (.pindir (pinId p b) dir) s = .next t ∧
      (readReg t (.dir p)).getLsbD b = decide (dir = .output) ∧
      (readReg t (.out p)).getLsbD b =
        (decide (dir = .inputWithPullup) || (readReg s (.out p)).getLsbD b) ∧
      t.resp = none

/-- PINSET in range (R123): High sets the output bit, Low clears it, whatever the direction; the direction
register is kept; the response is none. -/
def Obligations.PinsetSetsTheLevel : Prop :=
  ∀ (s : State) (p : Port) (b : Fin 8) (level : Level), s.cfg.wf = true →
    ∃ t, exec (.pinset (pinId p b) level) s = .next t ∧
      (readReg t (.out p)).getLsbD b = decide (level = .high) ∧
      readReg t (.dir p) = readReg s (.dir p) ∧
      t.resp = none

/-- PINGET (R124): in range the response is the pin's bit of the input register; out of range it is the
sentinel 0; no register and no other component changes. -/
def Obligations.PingetReadsTheInputBit : Prop :=
  (∀ (s : State) (p : Port) (b : Fin 8), s.cfg.wf = true →
    ∃ t, exec (.pinget (pinId p b)) s = .next t ∧
      t.resp = some ((readReg s (.inp p)).getLsbD b) ∧
      t = { s with resp := t.resp, dlatch := none }) ∧
  (∀ (s : State) (id : Nat), 32 ≤ id → exec (.pinget id) s = .next { s with resp := some false })

/-- R121, step 1: an identifier of 32 or more is a defined no-op of PINDIR and PINSET. (PINGET:
`PingetReadsTheInputBit`.) -/
def Obligations.IdentifierOutOfRangeIsNoOp : Prop :=
  ∀ (s : State) (id : Nat) (dir : Direction) (level : Level), 32 ≤ id →
    exec (.pindir id dir) s = .next { s with resp := none } ∧
    exec (.pinset id level) s = .next { s with resp := none }

/-- R125: an indexed command on an identifier in 0..31 does what the port-level command on its port and pin
does, registers and response (from a state with an empty descriptor latch, as every state between commands is,
R39). The spec marks this law as derived. -/
def Obligations.IndexedEqualsPortLevel : Prop :=
  ∀ (s : State) (i : Instr) (id : Nat), s.cfg.wf = true → s.dlatch = none →
    indexedId i = some id → id < 32 → exec i s = exec (directForm i) s

/-- R126: an indexed command in range changes at most its pin's bit of its port's direction and output
registers; every other register, bit and component is unchanged, the latch is emptied and the response given.
Out of range nothing but the response changes. The spec marks this law as derived; that the other seven bits
are kept is its decision D12. -/
def Obligations.IndexedFrame : Prop :=
  ∀ (s : State) (i : Instr) (id : Nat), s.cfg.wf = true → indexedId i = some id →
    (∀ p b, id = pinId p b → ∃ t, exec i s = .next t ∧
      (∀ r, r ≠ .dir p → r ≠ .out p → readReg t r = readReg s r) ∧
      (∀ k, k < 8 → k ≠ b.val →
        (readReg t (.dir p)).getLsbD k = (readReg s (.dir p)).getLsbD k ∧
        (readReg t (.out p)).getLsbD k = (readReg s (.out p)).getLsbD k) ∧
      t = { s with regs := t.regs, resp := t.resp, dlatch := none }) ∧
    (32 ≤ id → ∃ t, exec i s = .next t ∧ t = { s with resp := t.resp })

/-! ## Port-level GPIO -/

/-- PPDIR in range (R142): as PINDIR, on the named port and pin. The effect is the spec's decision D14. -/
def Obligations.PpdirSetsTheDirection : Prop :=
  ∀ (s : State) (p : Port) (b : Fin 8) (dir : Direction), s.cfg.wf = true →
    ∃ t, exec (.ppdir p.number b dir) s = .next t ∧
      (readReg t (.dir p)).getLsbD b = decide (dir = .output) ∧
      (readReg t (.out p)).getLsbD b =
        (decide (dir = .inputWithPullup) || (readReg s (.out p)).getLsbD b) ∧
      t.resp = none

/-- PPSET in range (R143): High sets the output bit, Low clears it; the direction register is kept. The effect
is the spec's decision D14. -/
def Obligations.PpsetSetsTheLevel : Prop :=
  ∀ (s : State) (p : Port) (b : Fin 8) (level : Level), s.cfg.wf = true →
    ∃ t, exec (.ppset p.number b level) s = .next t ∧
      (readReg t (.out p)).getLsbD b = decide (level = .high) ∧
      readReg t (.dir p) = readReg s (.dir p) ∧
      t.resp = none

/-- PPTGL in range (R144): the output bit is inverted, from the output register and not the input register; the
direction register is kept. A second PPTGL of the same pin restores every register (R144 (a)). The effect is
the spec's decision D15. -/
def Obligations.PptglInvertsTheLevel : Prop :=
  ∀ (s : State) (p : Port) (b : Fin 8), s.cfg.wf = true →
    ∃ t u, exec (.pptgl p.number b) s = .next t ∧ exec (.pptgl p.number b) t = .next u ∧
      (readReg t (.out p)).getLsbD b = !(readReg s (.out p)).getLsbD b ∧
      readReg t (.dir p) = readReg s (.dir p) ∧
      t.resp = none ∧ u.regs = s.regs

/-- PPGET in range (R145): the response is the pin's bit of the input register and no register changes. The
effect is the spec's decision D16. -/
def Obligations.PpgetReadsTheInputBit : Prop :=
  ∀ (s : State) (p : Port) (b : Fin 8), s.cfg.wf = true →
    ∃ t, exec (.ppget p.number b) s = .next t ∧
      t.resp = some ((readReg s (.inp p)).getLsbD b) ∧
      t = { s with resp := t.resp }

/-- PORTDIR in range (R146): the direction register takes the operand; the output register is kept. The effect
is the spec's decision D17. -/
def Obligations.PortdirWritesTheDirectionRegister : Prop :=
  ∀ (s : State) (p : Port) (val : Byte), s.cfg.wf = true →
    ∃ t, exec (.portdir p.number val) s = .next t ∧
      readReg t (.dir p) = val ∧ readReg t (.out p) = readReg s (.out p) ∧ t.resp = none

/-- PORTSET in range (R147): the output register takes the operand; the direction register is kept. The effect
is the spec's decision D17. -/
def Obligations.PortsetWritesTheOutputRegister : Prop :=
  ∀ (s : State) (p : Port) (val : Byte), s.cfg.wf = true →
    ∃ t, exec (.portset p.number val) s = .next t ∧
      readReg t (.out p) = val ∧ readReg t (.dir p) = readReg s (.dir p) ∧ t.resp = none

/-- R141: a port of 4 or more is a no-op for all six commands, a pin of 8 or more for the four that have a
pin, PPGET answering the sentinel 0 (that a pin of 8 or more is one is decision D13). -/
def Obligations.PortOrPinOutOfRangeIsNoOp : Prop :=
  ∀ (s : State) (port pin : Nat) (dir : Direction) (level : Level) (val : Byte),
    (4 ≤ port ∨ 8 ≤ pin →
      exec (.ppdir port pin dir) s = .next { s with resp := none } ∧
      exec (.ppset port pin level) s = .next { s with resp := none } ∧
      exec (.pptgl port pin) s = .next { s with resp := none } ∧
      exec (.ppget port pin) s = .next { s with resp := some false }) ∧
    (4 ≤ port →
      exec (.portdir port val) s = .next { s with resp := none } ∧
      exec (.portset port val) s = .next { s with resp := none })

/-- R148: a port-level command in range changes at most its port's direction and output registers, a single-pin
command at most its pin's bit of each, PPGET nothing; every other register and component is unchanged but the
response. Out of range nothing but the response changes. The spec marks this law as derived; it rests on its
decisions D13 to D17. -/
def Obligations.PortLevelFrame : Prop :=
  ∀ (s : State) (i : Instr) (port : Nat) (pin : Option Nat), s.cfg.wf = true →
    portLevel i = some (port, pin) →
    (∀ p : Port, port = p.number → (∀ n, pin = some n → n < 8) → ∃ t, exec i s = .next t ∧
      (∀ r, r ≠ .dir p → r ≠ .out p → readReg t r = readReg s r) ∧
      (∀ n, pin = some n → ∀ k, k < 8 → k ≠ n →
        (readReg t (.dir p)).getLsbD k = (readReg s (.dir p)).getLsbD k ∧
        (readReg t (.out p)).getLsbD k = (readReg s (.out p)).getLsbD k) ∧
      (i.op = .ppget → t.regs = s.regs) ∧
      t = { s with regs := t.regs, resp := t.resp }) ∧
    (4 ≤ port ∨ (∃ n, pin = some n ∧ 8 ≤ n) →
      ∃ t, exec i s = .next t ∧ t = { s with resp := t.resp })

/-- R149: a whole-port command ends in the state that eight single-pin commands, pins 0 to 7 with the bits of
its operand, end in. The spec marks this law as derived. -/
def Obligations.WholePortEqualsEightPins : Prop :=
  ∀ (s : State) (p : Port) (v : Byte), s.cfg.wf = true →
    ∃ t u, exec (.portdir p.number v) s = .next t ∧
      execAll ((pinsOf v).map fun x => .ppdir p.number x.1 (if x.2 then .output else .input)) s
        = .next t ∧
      exec (.portset p.number v) s = .next u ∧
      execAll ((pinsOf v).map fun x => .ppset p.number x.1 (if x.2 then .high else .low)) s
        = .next u

/-- R124 (a), R145: what a read answers depends on the input registers alone, not on the directions, the output
levels, the timer or the callback; in range or not. That PPGET reads as PINGET does is the spec's decision D16.
-/
def Obligations.ReadsDependOnInputsOnly : Prop :=
  ∀ (s s' : State) (i : Instr), s.cfg.wf = true → s.cfg = s'.cfg →
    (∀ p, readReg s (.inp p) = readReg s' (.inp p)) → i.op = .pinget ∨ i.op = .ppget →
    ∃ t t', exec i s = .next t ∧ exec i s' = .next t' ∧ t.resp = t'.resp

/-! ## Timer0 -/

/-- T0INIT in Normal mode (R170's table, R173): both waveform-generation bits cleared, compare-output 0,
force-output-compare set, clock source rewritten, counter loaded, compare register kept, overflow enable set
when requested and otherwise by `P_IE_ASSIGN`, compare-match enable kept. The initial counter value, the kept
compare register and the unrequested enable are the spec's decisions D27, D29, D26. -/
def Obligations.T0initNormalEffect : Prop :=
  ∀ (s : State) (ie : Bool) (clk com tick init : Byte), s.cfg.wf = true →
    ∃ t, exec (.t0init .normal ie clk com tick init) s = .next t ∧
      readReg t .tcnt = init ∧ readReg t .tcmp = readReg s .tcmp ∧
      (readReg t .timsk).getLsbD s.cfg.toieB =
        (ie || (!s.cfg.pIeAssign && (readReg s .timsk).getLsbD s.cfg.toieB)) ∧
      (readReg t .timsk).getLsbD s.cfg.ocieB = (readReg s .timsk).getLsbD s.cfg.ocieB ∧
      (readReg t .tctrl).getLsbD s.cfg.focB = true ∧
      (readReg t .tctrl).getLsbD s.cfg.wgmLoB = false ∧
      (readReg t .tctrl).getLsbD s.cfg.wgmHiB = false ∧
      (∀ k, k < 2 → (readReg t .tctrl).getLsbD (s.cfg.comLsb + k) = false) ∧
      (∀ k, k < 3 → (readReg t .tctrl).getLsbD (s.cfg.csLsb + k) = clk.getLsbD k) ∧
      t.tstate = .normal ∧ t.resp = none

/-- T0INIT in CTC mode (R170's table, R173): low waveform-generation bit cleared, high one set, compare-output
from the operand, force-output-compare by `P_FOC_KEEP`, clock source rewritten, counter and compare register
loaded, compare-match enable set when requested and otherwise by `P_IE_ASSIGN`, overflow enable kept. The
initial counter value, the force-output-compare bit and the unrequested enable are the spec's decisions D27,
D25, D26. -/
def Obligations.T0initCtcEffect : Prop :=
  ∀ (s : State) (ie : Bool) (clk com tick init : Byte), s.cfg.wf = true →
    ∃ t, exec (.t0init .ctc ie clk com tick init) s = .next t ∧
      readReg t .tcnt = init ∧ readReg t .tcmp = tick ∧
      (readReg t .timsk).getLsbD s.cfg.ocieB =
        (ie || (!s.cfg.pIeAssign && (readReg s .timsk).getLsbD s.cfg.ocieB)) ∧
      (readReg t .timsk).getLsbD s.cfg.toieB = (readReg s .timsk).getLsbD s.cfg.toieB ∧
      (readReg t .tctrl).getLsbD s.cfg.focB =
        (s.cfg.pFocKeep && (readReg s .tctrl).getLsbD s.cfg.focB) ∧
      (readReg t .tctrl).getLsbD s.cfg.wgmLoB = false ∧
      (readReg t .tctrl).getLsbD s.cfg.wgmHiB = true ∧
      (∀ k, k < 2 → (readReg t .tctrl).getLsbD (s.cfg.comLsb + k) = com.getLsbD k) ∧
      (∀ k, k < 3 → (readReg t .tctrl).getLsbD (s.cfg.csLsb + k) = clk.getLsbD k) ∧
      t.tstate = .ctc ∧ t.resp = none

/-- T0INIT in FastPWM mode (R170's table, R173): both waveform-generation bits set, compare-output from the
operand, force-output-compare by `P_FOC_KEEP`, clock source rewritten, counter and compare register loaded,
interrupt-mask register not touched. The initial counter value and the force-output-compare bit are the spec's
decisions D27, D25. -/
def Obligations.T0initFastPwmEffect : Prop :=
  ∀ (s : State) (ie : Bool) (clk com tick init : Byte), s.cfg.wf = true →
    ∃ t, exec (.t0init .fastPwm ie clk com tick init) s = .next t ∧
      readReg t .tcnt = init ∧ readReg t .tcmp = tick ∧ readReg t .timsk = readReg s .timsk ∧
      (readReg t .tctrl).getLsbD s.cfg.focB =
        (s.cfg.pFocKeep && (readReg s .tctrl).getLsbD s.cfg.focB) ∧
      (readReg t .tctrl).getLsbD s.cfg.wgmLoB = true ∧
      (readReg t .tctrl).getLsbD s.cfg.wgmHiB = true ∧
      (∀ k, k < 2 → (readReg t .tctrl).getLsbD (s.cfg.comLsb + k) = com.getLsbD k) ∧
      (∀ k, k < 3 → (readReg t .tctrl).getLsbD (s.cfg.csLsb + k) = clk.getLsbD k) ∧
      t.tstate = .fastPwm ∧ t.resp = none

/-- R171: T0INIT reduces the clock-source operand to 3 bits and the compare-output operand to 2; their
stray high bits have no effect on any state. No other operand is masked: the tick value, the initial counter
value and the duty value reach their registers whole. -/
def Obligations.StrayOperandBitsHaveNoEffect : Prop :=
  (∀ (s : State) (mode : T0Mode) (ie : Bool) (clk clk' com com' tick init : Byte),
    (∀ k, k < 3 → clk.getLsbD k = clk'.getLsbD k) → (∀ k, k < 2 → com.getLsbD k = com'.getLsbD k) →
    exec (.t0init mode ie clk com tick init) s = exec (.t0init mode ie clk' com' tick init) s) ∧
  (∀ (s : State) (mode : T0Mode) (ie : Bool) (clk com tick init value : Byte), s.cfg.wf = true →
    ∃ t u, exec (.t0init mode ie clk com tick init) s = .next t ∧ exec (.t0duty value) s = .next u ∧
      readReg t .tcnt = init ∧ (mode ≠ .normal → readReg t .tcmp = tick) ∧ readReg u .tcmp = value)

/-- R172: the encoder is a full assignment: no bit of the old content survives, except the force-output-compare
bit in CTC and FastPWM when `P_FOC_KEEP` is true. The policy is the spec's decision D25. -/
def Obligations.EncoderForgetsTheOldContent : Prop :=
  ∀ (cfg : Config) (mode : T0Mode) (ck : BitVec 3) (cm : BitVec 2) (old old' : Byte), cfg.wf = true →
    (mode ≠ .normal → cfg.pFocKeep = true → old.getLsbD cfg.focB = old'.getLsbD cfg.focB) →
    encTctrl cfg mode ck cm old = encTctrl cfg mode ck cm old' ∧
    (mode ≠ .normal → cfg.pFocKeep = true →
      (encTctrl cfg mode ck cm old).getLsbD cfg.focB = old.getLsbD cfg.focB)

/-- R174: the interrupt-enable update. Set when the flag is 1; when it is 0, cleared under `P_IE_ASSIGN` and
otherwise left; the other seven bits unchanged; twice is once. The two policies for an unrequested enable are
the spec's decision D26. -/
def Obligations.InterruptEnableUpdate : Prop :=
  ∀ (cfg : Config) (k : Nat) (ie : Bool) (t : Byte), k < 8 →
    (ieUpd cfg k ie t).getLsbD k = (ie || (!cfg.pIeAssign && t.getLsbD k)) ∧
    (∀ j, j < 8 → j ≠ k → (ieUpd cfg k ie t).getLsbD j = t.getLsbD j) ∧
    ieUpd cfg k ie (ieUpd cfg k ie t) = ieUpd cfg k ie t

/-- R175: (a) the same configuration twice leaves what it leaves once; (b) the new control register does not
depend on the previous mode, except for the force-output-compare bit under `P_FOC_KEEP`; (c) no command other
than T0INIT writes `TCTRL`, `TIMSK` or `TCNT`. The spec marks (a) and (b) as derived. -/
def Obligations.T0initLaws : Prop :=
  (∀ (s : State) (mode : T0Mode) (ie : Bool) (clk com tick init : Byte), s.cfg.wf = true →
    ∃ t, exec (.t0init mode ie clk com tick init) s = .next t ∧
      exec (.t0init mode ie clk com tick init) t = .next t) ∧
  (∀ (s s' : State) (mode : T0Mode) (ie : Bool) (clk com tick init : Byte), s.cfg.wf = true →
    s.cfg = s'.cfg →
    (s.cfg.pFocKeep = true → (readReg s .tctrl).getLsbD s.cfg.focB =
      (readReg s' .tctrl).getLsbD s.cfg.focB) →
    ∃ t t', exec (.t0init mode ie clk com tick init) s = .next t ∧
      exec (.t0init mode ie clk com tick init) s' = .next t' ∧ readReg t .tctrl = readReg t' .tctrl) ∧
  (∀ (s t : State) (i : Instr), s.cfg.wf = true → i.op ≠ .t0init → exec i s = .next t →
    readReg t .tctrl = readReg s .tctrl ∧ readReg t .timsk = readReg s .timsk ∧
      readReg t .tcnt = readReg s .tcnt)

/-- T0DUTY (R176): the compare register takes the value in every state of the mode machine, and overrides the
tick value of an earlier T0INIT (test vector S4). That it does so outside FastPWM too is the spec's decision
D42. -/
def Obligations.T0dutyWritesTheCompareRegister : Prop :=
  (∀ (s : State) (value : Byte), s.cfg.wf = true →
    ∃ t, exec (.t0duty value) s = .next t ∧ readReg t .tcmp = value ∧ t.resp = none) ∧
  (∀ (s : State) (mode : T0Mode) (ie : Bool) (clk com tick init value : Byte), s.cfg.wf = true →
    ∃ t, execAll [.t0init mode ie clk com tick init, .t0duty value] s = .next t ∧
      readReg t .tcmp = value ∧ t.tstate = modeState mode)

/-- T0CB (R177): for every `CBW`, the slot takes the handle, 0 standing for no callback, whatever it held;
while a callback is in service the command is refused. An operand of more than `CBW` bits, of which the spec
says nothing, leaves the slot with some handle of `CBW` bits or none (a free value, log 27). That handle 0 is
none and that the command is refused in service are the spec's decisions D30, D44. -/
def Obligations.T0cbFillsTheSlot : Prop :=
  ∀ (s : State) (handle : Handle),
    (s.inService = false → handle < 2 ^ s.cfg.cbw → exec (.t0cb handle) s =
      .next { s with cb := if handle = 0 then none else some handle, resp := none }) ∧
    (s.inService = false → 2 ^ s.cfg.cbw ≤ handle → ∃ h, h < 2 ^ s.cfg.cbw ∧ exec (.t0cb handle) s =
      .next { s with cb := if h = 0 then none else some h, resp := none }) ∧
    (s.inService = true → exec (.t0cb handle) s = .refused .callbackInService)

/-- R178: T0INIT changes at most `TCTRL`, `TCNT`, `TCMP`, the overflow (Normal) or compare-match (CTC) enable
bit of `TIMSK` and `tstate`; T0DUTY at most `TCMP`; T0CB at most `cb`; and the response. The spec marks this
law as derived. -/
def Obligations.TimerFrame : Prop :=
  (∀ (s : State) (mode : T0Mode) (ie : Bool) (clk com tick init : Byte), s.cfg.wf = true →
    ∃ t, exec (.t0init mode ie clk com tick init) s = .next t ∧
      (∀ r, r ≠ .tctrl → r ≠ .tcnt → r ≠ .tcmp → r ≠ .timsk → readReg t r = readReg s r) ∧
      (∀ k, k < 8 → (mode = .normal → k ≠ s.cfg.toieB) → (mode = .ctc → k ≠ s.cfg.ocieB) →
        (readReg t .timsk).getLsbD k = (readReg s .timsk).getLsbD k) ∧
      t = { s with regs := t.regs, tstate := t.tstate, resp := t.resp }) ∧
  (∀ (s : State) (value : Byte), s.cfg.wf = true →
    ∃ t, exec (.t0duty value) s = .next t ∧ (∀ r, r ≠ .tcmp → readReg t r = readReg s r) ∧
      t = { s with regs := t.regs, resp := t.resp }) ∧
  (∀ (s : State) (handle : Handle), s.inService = false →
    ∃ t, exec (.t0cb handle) s = .next t ∧ t = { s with cb := t.cb, resp := t.resp })

/-! ## Events -/

/-- R207: an admitted event, of either source, invokes the stored callback if there is one, else does nothing;
no register is read or written by delivery. That an event is admitted by its enable and outside service only is
the spec's decisions D31, D32; the list of stimuli and the record of invocations are the model's choices (log
1, log 16). -/
def Obligations.AdmittedEventInvokesTheCallback : Prop :=
  ∀ (s : State) (e : EnvStep) (rest : List Stimulus), s.env.pending = .environment e :: rest →
    s.inService = false →
    (e = .compareMatch ∧ (readReg s .timsk).getLsbD s.cfg.ocieB = true) ∨
      (e = .overflow ∧ (readReg s .timsk).getLsbD s.cfg.toieB = true) →
    (s.cb = none → step s = .next { s with env := { s.env with pending := rest } }) ∧
    (∀ h, s.cb = some h → step s = .next { s with
      inService := true,
      env := { s.env with pending := rest, invocations := s.env.invocations ++ [h] } })

/-- R206, R208, R212: an event whose enable bit is clear, an event while a callback is in service, and a return
while none is, change nothing and are not remembered. That the signal is taken off the list of stimuli without
effect, where the spec has no step at all, is the model's choice (log 15). The admission rule and the absence
of pending bits are the spec's decisions D31, D32. -/
def Obligations.EventNotAdmittedChangesNothing : Prop :=
  ∀ (s : State) (e : EnvStep) (rest : List Stimulus), s.env.pending = .environment e :: rest →
    (e = .compareMatch ∧ ((readReg s .timsk).getLsbD s.cfg.ocieB = false ∨ s.inService = true)) ∨
      (e = .overflow ∧ ((readReg s .timsk).getLsbD s.cfg.toieB = false ∨ s.inService = true)) ∨
      (e = .callbackReturn ∧ s.inService = false) →
    step s = .next { s with env := { s.env with pending := rest } }

/-- R212: the callback's return has the whole effect `in_service <- false`, and after it both events are
admitted again under their enables, which it leaves as they were. The admission rule is the spec's decisions
D31, D32. -/
def Obligations.CallbackReturnEndsService : Prop :=
  ∀ (s : State) (rest : List Stimulus), s.env.pending = .environment .callbackReturn :: rest →
    s.inService = true →
    ∃ t, step s = .next t ∧
      t = { s with inService := false, env := { s.env with pending := rest } } ∧
      admitsCompare t = (readReg s .timsk).getLsbD s.cfg.ocieB ∧
      admitsOverflow t = (readReg s .timsk).getLsbD s.cfg.toieB

/-- R38, R207, R210, R212: only the delivery of an enabled event to a stored callback begins service, and it
emits exactly that callback's handle; only the callback's return ends it; no other step emits one. The
admission rule and single-level service are the spec's decisions D31, D32; the record of invocations is the
model's (log 16). -/
def Obligations.OnlyEventsEnterAndLeaveService : Prop :=
  ∀ s t : State, step s = .next t →
    (s.inService = false → t.inService = true →
      ∃ h rest, s.cb = some h ∧ t.env.invocations = s.env.invocations ++ [h] ∧
        ((s.env.pending = .environment .compareMatch :: rest ∧
            (readReg s .timsk).getLsbD s.cfg.ocieB = true) ∨
          (s.env.pending = .environment .overflow :: rest ∧
            (readReg s .timsk).getLsbD s.cfg.toieB = true))) ∧
    (s.inService = true → t.inService = false →
      ∃ rest, s.env.pending = .environment .callbackReturn :: rest) ∧
    ((s.inService = true ∨ t.inService = false) → t.env.invocations = s.env.invocations)

/-- R25, R31, R75: an environment step overwrites one input register, or the counter, with any byte, and
changes nothing else. That the environment may write any byte there is the spec's decisions D19, D34. -/
def Obligations.EnvironmentOverwritesOneRegister : Prop :=
  ∀ (s : State) (rest : List Stimulus) (v : Byte),
    (∀ p, s.env.pending = .environment (.setInput p v) :: rest →
      ∃ t, step s = .next t ∧ readReg t (.inp p) = v ∧
        (∀ r, r ≠ .inp p → readReg t r = readReg s r) ∧
        t = { s with regs := t.regs, env := { s.env with pending := rest } }) ∧
    (s.env.pending = .environment (.setCounter v) :: rest →
      ∃ t, step s = .next t ∧ readReg t .tcnt = v ∧
        (∀ r, r ≠ .tcnt → readReg t r = readReg s r) ∧
        t = { s with regs := t.regs, env := { s.env with pending := rest } })

/-! ## The whole machine -/

/-- A step whose next stimulus is a command word that decodes to `i` is `exec i`, with the word taken off the
list and the host's command index advanced by exactly 1 (R10, R41, R99); a T0CB presented with an abstract
handle (R96, log 9) is `exec` of that T0CB in the same way. The command index is the spec's decision D36; the
list of stimuli and the abstract registration are the model's (log 1, log 9). -/
def Obligations.StepRunsTheDecodedCommand : Prop :=
  (∀ (s : State) (w : CmdWord) (rest : List Stimulus) (i : Instr),
    s.env.pending = .command w :: rest → decode w = .ok i →
    step s = exec i { s with env := { s.env with pending := rest, ci := s.env.ci + 1 } }) ∧
  (∀ (s : State) (handle : Handle) (rest : List Stimulus), s.env.pending = .register handle :: rest →
    step s = exec (.t0cb handle) { s with env := { s.env with pending := rest, ci := s.env.ci + 1 } })

/-- R100: a reserved word gets no step; the run is refused with the word's reason. That a reserved word is
refused is the spec's decisions D3, D41. -/
def Obligations.StepRefusesReservedWords : Prop :=
  ∀ (s : State) (w : CmdWord) (rest : List Stimulus) (why : Reserved),
    s.env.pending = .command w :: rest → decode w = .error why →
    step s = .refused (.reservedWord why)

/-- With nothing presented the machine stays as it is. The model's choice (log 2): the spec has no step
there (R10, R241). -/
def Obligations.NothingPresentedChangesNothing : Prop :=
  ∀ s : State, s.env.pending = [] → step s = .next s

/-- R200, R202: no command faults, and every command completes in its one step, in every state; the one refusal
of a command is T0CB while a callback is in service (R177). The refusal is the spec's decision D44. -/
def Obligations.EveryCommandCompletes : Prop :=
  ∀ (s : State) (i : Instr), s.cfg.wf = true →
    (∃ t, exec i s = .next t) ∨
    ((∃ handle, i = .t0cb handle) ∧ s.inService = true ∧ exec i s = .refused .callbackInService)

/-- R20's column "written by", over all twelve commands: a register that is not among those a command may
write is left as it was, and no command writes an input register (R25). -/
def Obligations.RegistersChangeOnlyByTheirWriters : Prop :=
  ∀ (s t : State) (i : Instr) (r : Reg), s.cfg.wf = true → exec i s = .next t →
    mayWrite i.op r = false → readReg t r = readReg s r

/-- R36, R170, R44 (b): a step changes `tstate` only by an accepted T0INIT, and then to the mode it names; once
a mode is entered `tstate` is never Uninitialized again. The spec marks the second part as derived. -/
def Obligations.OnlyT0initChangesTheMode : Prop :=
  ∀ s t : State, s.cfg.wf = true → step s = .next t →
    (t.tstate = s.tstate ∨
      ∃ w rest mode ie clk com tick init, s.env.pending = .command w :: rest ∧
        decode w = .ok (.t0init mode ie clk com tick init) ∧ t.tstate = modeState mode) ∧
    (s.tstate ≠ .uninitialized → t.tstate ≠ .uninitialized)

/-- R33: the six bits of the interrupt-mask register that do not belong to Timer0 are never changed, by any
step. That the enables share one register with foreign bits is the spec's decision D21. -/
def Obligations.ForeignTimskBitsNeverChange : Prop :=
  ∀ (s t : State) (k : Nat), s.cfg.wf = true → step s = .next t → k < 8 → k ≠ s.cfg.ocieB →
    k ≠ s.cfg.toieB → (readReg t .timsk).getLsbD k = (readReg s .timsk).getLsbD k

/-- R255: a switch to FastPWM leaves both enable bits as they are, in service or not, and so which events are
admitted; and when `P_IE_ASSIGN` is false no command clears an enable bit at all. The spec marks this hazard as
derived; the policy is its decision D26. -/
def Obligations.FastPwmAndSetOnlyKeepTheEnables : Prop :=
  (∀ (s : State) (ie : Bool) (clk com tick init : Byte), s.cfg.wf = true →
    ∃ t, exec (.t0init .fastPwm ie clk com tick init) s = .next t ∧
      (readReg t .timsk).getLsbD s.cfg.ocieB = (readReg s .timsk).getLsbD s.cfg.ocieB ∧
      (readReg t .timsk).getLsbD s.cfg.toieB = (readReg s .timsk).getLsbD s.cfg.toieB ∧
      admitsCompare t = admitsCompare s ∧ admitsOverflow t = admitsOverflow s) ∧
  (∀ (s t : State) (i : Instr), s.cfg.wf = true → s.cfg.pIeAssign = false → exec i s = .next t →
    ((readReg s .timsk).getLsbD s.cfg.ocieB = true → (readReg t .timsk).getLsbD s.cfg.ocieB = true) ∧
    ((readReg s .timsk).getLsbD s.cfg.toieB = true → (readReg t .timsk).getLsbD s.cfg.toieB = true))

/-- R148, R213: what a GPIO command does to the ports and answers does not depend on the timer registers, the
mode, the callback slot or whether a callback is in service. The spec marks the frame as derived; that commands
in service are as any other is its decision D45. -/
def Obligations.GpioIgnoresTheTimerHalf : Prop :=
  ∀ (s s' : State) (i : Instr), s.cfg.wf = true → SamePorts s s' →
    (indexedId i ≠ none ∨ portLevel i ≠ none) →
    ∃ t t', exec i s = .next t ∧ exec i s' = .next t' ∧ SamePorts t t' ∧ t.resp = t'.resp

/-- R45, R240: every component after reset, for every value of the parameters, `INIT_REGS` among them. The
values of in_service and resp and the free INIT_REGS are the spec's decisions D32, D7, D35 (log 18). -/
def Obligations.ResetLeavesTheTableOfR45 : Prop :=
  ∀ cfg : Config,
    (State.resetOf cfg).tstate = .uninitialized ∧ (State.resetOf cfg).cb = none ∧
    (State.resetOf cfg).inService = false ∧ (State.resetOf cfg).dlatch = none ∧
    (State.resetOf cfg).resp = none ∧ (State.resetOf cfg).env.ci = 0 ∧
    (∀ r, readReg (State.resetOf cfg) r = regRead cfg.initRegs r) ∧
    (∀ id, rom (State.resetOf cfg).cfg id = rom cfg id)

/-- The invariant holds after reset, for every well-formed configuration and whatever the host and the
environment do next. The invariant is the model's, put together from derived clauses of the spec. -/
def Obligations.InvariantHoldsAtReset : Prop :=
  ∀ (cfg : Config) (stimuli : List Stimulus), cfg.wf = true →
    State.Inv (State.resetOf cfg) ∧ State.Inv (State.started cfg stimuli)

/-- Every step keeps the invariant: the parameters, the empty latch (R39), a callback in service (R44 (c)), the
waveform-generation bits of the mode (R36) and Normal mode's fields (R170). The invariant is the model's, put
together from derived clauses of the spec. -/
def Obligations.EveryStepKeepsTheInvariant : Prop :=
  ∀ s t : State, s.Inv → step s = .next t → t.Inv

/-- R200: from every state that meets the invariant, no run of any length, whatever the host presents and the
environment does, ends in a fault, and every state it reaches meets the invariant. The model's fault values are
its own (log 10 to 12). -/
def Obligations.RunsNeverFault : Prop :=
  ∀ (s : State) (n : Nat), s.Inv →
    NoFault (Host.Core.run core n s) ∧ ∀ t, Host.Core.run core n s = .next t → t.Inv
end

