-- ==== Sys2Proof/Laws/Encoding.lean ====
section
/-! SUPPORT. The word of six positions (R90) and the opcode table (R97): what assembling, splitting, masking
and looking a row up do, said once. -/

namespace Sys2Proof

/-! ### Splitting and assembling -/

@[simp] theorem positions_assemble (p : Positions) : positions (assemble p) = p := by
  obtain ⟨op, a, b, c, d, e⟩ := p
  simp only [positions, assemble, Positions.mk.injEq]
  refine ⟨?_, ?_, ?_, ?_, ?_, ?_⟩ <;>
    · apply BitVec.eq_of_getLsbD_eq
      intro i hi
      simp only [BitVec.getLsbD_extractLsb', BitVec.getLsbD_append]
      interval_cases i <;> simp

@[simp] theorem assemble_positions (w : CmdWord) : assemble (positions w) = w := by
  apply BitVec.eq_of_getLsbD_eq
  intro i hi
  simp only [positions, assemble, BitVec.getLsbD_append, BitVec.getLsbD_extractLsb']
  interval_cases i <;> simp

/-- A command word is its six positions. -/
theorem positions_injective {w v : CmdWord} (h : positions w = positions v) : w = v := by
  rw [← assemble_positions w, h, assemble_positions]

/-- Masking a word masks each of its positions. -/
theorem positions_and (w m : CmdWord) :
    positions (w &&& m) =
      { op := (positions w).op &&& (positions m).op, a := (positions w).a &&& (positions m).a
        b := (positions w).b &&& (positions m).b, c := (positions w).c &&& (positions m).c
        d := (positions w).d &&& (positions m).d, e := (positions w).e &&& (positions m).e } := by
  simp [positions, BitVec.extractLsb'_and]

/-! ### Rows -/

/-- A word spells a row's command iff each of its positions, masked, is the row's. -/
theorem spells_iff (r : OpRow) (w : CmdWord) :
    r.spells w = true ↔
      (positions w).op &&& (positions r.mask).op = (positions r.value).op ∧
      (positions w).a &&& (positions r.mask).a = (positions r.value).a ∧
      (positions w).b &&& (positions r.mask).b = (positions r.value).b ∧
      (positions w).c &&& (positions r.mask).c = (positions r.value).c ∧
      (positions w).d &&& (positions r.mask).d = (positions r.value).d ∧
      (positions w).e &&& (positions r.mask).e = (positions r.value).e := by
  have h : (w &&& r.mask = r.value) ↔ positions (w &&& r.mask) = positions r.value :=
    ⟨fun h => by rw [h], positions_injective⟩
  simp only [OpRow.spells, beq_iff_eq, h, positions_and]
  constructor
  · intro e
    have := congrArg Positions.op e
    have := congrArg Positions.a e
    have := congrArg Positions.b e
    have := congrArg Positions.c e
    have := congrArg Positions.d e
    have := congrArg Positions.e e
    exact ⟨‹_›, ‹_›, ‹_›, ‹_›, ‹_›, ‹_›⟩
  · rintro ⟨h1, h2, h3, h4, h5, h6⟩
    rw [h1, h2, h3, h4, h5, h6]

/-- Every row's mask keeps the whole opcode, and its value is the opcode of its command (R97). -/
theorem row_opcode {r : OpRow} (h : r ∈ opcodeTable) :
    (positions r.mask).op = 0xFF ∧ (positions r.value).op = r.op.opcode := by
  revert h
  have : ∀ r ∈ opcodeTable, (positions r.mask).op = 0xFF ∧ (positions r.value).op = r.op.opcode := by
    decide
  exact this r

/-- A word that spells a row's command carries its opcode (R97). -/
theorem opcode_of_spells {r : OpRow} (hr : r ∈ opcodeTable) {w : CmdWord} (h : r.spells w = true) :
    (positions w).op = r.op.opcode := by
  have h1 := (spells_iff r w).mp h
  obtain ⟨hm, hv⟩ := row_opcode hr
  have := h1.1
  rw [hm, hv] at this
  rw [← this]
  exact (BitVec.and_allOnes (x := (positions w).op)).symm

/-- No two rows share an opcode (R97: "the opcodes differ"). -/
theorem row_of_opcode {r q : OpRow} (hr : r ∈ opcodeTable) (hq : q ∈ opcodeTable)
    (h : r.op.opcode = q.op.opcode) : r = q := by
  have : ∀ r ∈ opcodeTable, ∀ q ∈ opcodeTable, r.op.opcode = q.op.opcode → r = q := by decide
  exact this r hr q hq h

/-- The row a word spells is the row that is found (R99). -/
theorem rowOf_eq_some {r : OpRow} {w : CmdWord} :
    rowOf w = some r ↔ r ∈ opcodeTable ∧ r.spells w = true := by
  constructor
  · intro h
    exact ⟨List.mem_of_find?_eq_some h, by simpa using List.find?_some h⟩
  · rintro ⟨hr, hs⟩
    cases e : rowOf w with
    | none => exact absurd hs (by simpa using List.find?_eq_none.mp e r hr)
    | some q =>
      have hq := List.mem_of_find?_eq_some e
      have hqs : q.spells w = true := by simpa using List.find?_some e
      rw [row_of_opcode hq hr ((opcode_of_spells hq hqs).symm.trans (opcode_of_spells hr hs))]

/-- No row is found iff the word spells no row's command (R99). -/
theorem rowOf_eq_none {w : CmdWord} : rowOf w = none ↔ ∀ r ∈ opcodeTable, r.spells w = false := by
  simp [rowOf, List.find?_eq_none]

/-- The row of a command (R97). -/
theorem exists_row (op : Op) : ∃ r ∈ opcodeTable, r.op = op := by
  cases op <;> simp [opcodeTable]

/-! ### Operands -/

@[simp] theorem operandByte_toNat {n : Nat} (h : n < 256) : (operandByte n).toNat = n := by
  simp [operandByte, Nat.mod_eq_of_lt h]

@[simp] theorem operandByte_of_toNat (b : Byte) : operandByte b.toNat = b := by
  simp [operandByte]

@[simp] theorem directionOf_code (dir : Direction) : directionOf dir.code = .ok dir := by
  cases dir <;> rfl

@[simp] theorem levelOf_code (level : Level) : levelOf level.code = .ok level := by
  cases level <;> rfl

@[simp] theorem modeOf_code (mode : T0Mode) : modeOf mode.code = .ok mode := by
  cases mode <;> rfl

@[simp] theorem modeByte_mode (mode : T0Mode) (ie : Bool) :
    (modeByte mode ie).extractLsb' 0 2 = mode.code := by
  cases mode <;> cases ie <;> decide

@[simp] theorem modeByte_ie (mode : T0Mode) (ie : Bool) : (modeByte mode ie)[2] = ie := by
  cases mode <;> cases ie <;> decide

@[simp] theorem modeByte_sbz (mode : T0Mode) (ie : Bool) : modeByte mode ie &&& 248#8 = 0#8 := by
  cases mode <;> cases ie <;> decide

/-- A direction is read only from its own number (R98). -/
theorem directionOf_ok {b : Byte} {dir : Direction} (h : directionOf b = .ok dir) : b = dir.code := by
  unfold directionOf at h
  split_ifs at h with h0 h1 h2 <;> cases h <;> assumption

/-- A level is read only from its own number (R98). -/
theorem levelOf_ok {b : Byte} {level : Level} (h : levelOf b = .ok level) : b = level.code := by
  unfold levelOf at h
  split_ifs at h with h0 h1 <;> cases h <;> assumption

/-- A mode is read only from its own number (R98). -/
theorem modeOf_ok {b : BitVec 2} {mode : T0Mode} (h : modeOf b = .ok mode) : b = mode.code := by
  unfold modeOf at h
  split_ifs at h with h0 h1 h2 <;> cases h <;> assumption

/-- A byte whose top five bits are zero is the byte of its own mode and flag bits (R94). -/
theorem modeByte_of_sbz {a : Byte} {mode : T0Mode} (hz : a &&& 248#8 = 0#8)
    (hm : a.extractLsb' 0 2 = mode.code) : modeByte mode a[2] = a := by
  have key : ∀ a : Byte, a &&& 248#8 = 0#8 →
      (0#5 ++ BitVec.ofBool a[2] ++ a.extractLsb' 0 2 : BitVec 8) = a := by decide
  rw [modeByte, ← hm]
  exact key a hz

/-- The two bytes of a handle give it back (R96). -/
theorem handle_append (h : BitVec 16) : (h.extractLsb' 8 8 ++ h.extractLsb' 0 8 : BitVec 16) = h := by
  apply BitVec.eq_of_getLsbD_eq
  intro i hi
  simp only [BitVec.getLsbD_append, BitVec.getLsbD_extractLsb']
  interval_cases i <;> simp

/-- The field of a handle of 16 bits is the handle (R96). -/
@[simp] theorem handleField_toNat {h : Handle} (hh : h < 65536) : (handleField h).toNat = h := by
  simp [handleField, Nat.mod_eq_of_lt hh]

/-- The handle of a field gives the field back (R96). -/
@[simp] theorem handleField_of_toNat (b : BitVec 16) : handleField b.toNat = b := by
  simp [handleField]

/-- The first byte of a handle (R96). -/
theorem handle_high (a b : Byte) : (a ++ b : BitVec 16).extractLsb' 8 8 = a := by
  apply BitVec.eq_of_getLsbD_eq
  intro i hi
  simp only [BitVec.getLsbD_append, BitVec.getLsbD_extractLsb']
  interval_cases i <;> simp

/-- The second byte of a handle (R96). -/
theorem handle_low (a b : Byte) : (a ++ b : BitVec 16).extractLsb' 0 8 = b := by
  apply BitVec.eq_of_getLsbD_eq
  intro i hi
  simp only [BitVec.getLsbD_append, BitVec.getLsbD_extractLsb']
  interval_cases i <;> simp

end Sys2Proof
end

