-- ==== Sys2Proof/Laws/State.lean ====
section
/-! SUPPORT. One lemma a field for every update of the state, each true by definition: later proofs read a
field of an updated state without unfolding the update. -/

namespace Sys2Proof.Machine

variable (s : State)

/-! ### `writeReg` -/

@[simp] theorem writeReg_cfg (r : Reg) (v : Byte) : (writeReg s r v).cfg = s.cfg := rfl
@[simp] theorem writeReg_regs (r : Reg) (v : Byte) : (writeReg s r v).regs = regWrite s.regs r v := rfl
@[simp] theorem writeReg_tstate (r : Reg) (v : Byte) : (writeReg s r v).tstate = s.tstate := rfl
@[simp] theorem writeReg_cb (r : Reg) (v : Byte) : (writeReg s r v).cb = s.cb := rfl
@[simp] theorem writeReg_inService (r : Reg) (v : Byte) : (writeReg s r v).inService = s.inService := rfl
@[simp] theorem writeReg_dlatch (r : Reg) (v : Byte) : (writeReg s r v).dlatch = s.dlatch := rfl
@[simp] theorem writeReg_resp (r : Reg) (v : Byte) : (writeReg s r v).resp = s.resp := rfl
@[simp] theorem writeReg_env (r : Reg) (v : Byte) : (writeReg s r v).env = s.env := rfl

/-! ### `romFetch` -/

@[simp] theorem romFetch_cfg (id : Fin 32) : (romFetch s id).cfg = s.cfg := rfl
@[simp] theorem romFetch_regs (id : Fin 32) : (romFetch s id).regs = s.regs := rfl
@[simp] theorem romFetch_tstate (id : Fin 32) : (romFetch s id).tstate = s.tstate := rfl
@[simp] theorem romFetch_cb (id : Fin 32) : (romFetch s id).cb = s.cb := rfl
@[simp] theorem romFetch_inService (id : Fin 32) : (romFetch s id).inService = s.inService := rfl
@[simp] theorem romFetch_dlatch (id : Fin 32) : (romFetch s id).dlatch = some (rom s.cfg id) := rfl
@[simp] theorem romFetch_resp (id : Fin 32) : (romFetch s id).resp = s.resp := rfl
@[simp] theorem romFetch_env (id : Fin 32) : (romFetch s id).env = s.env := rfl

/-! ### `dropLatch` -/

@[simp] theorem dropLatch_cfg : (dropLatch s).cfg = s.cfg := rfl
@[simp] theorem dropLatch_regs : (dropLatch s).regs = s.regs := rfl
@[simp] theorem dropLatch_tstate : (dropLatch s).tstate = s.tstate := rfl
@[simp] theorem dropLatch_cb : (dropLatch s).cb = s.cb := rfl
@[simp] theorem dropLatch_inService : (dropLatch s).inService = s.inService := rfl
@[simp] theorem dropLatch_dlatch : (dropLatch s).dlatch = none := rfl
@[simp] theorem dropLatch_resp : (dropLatch s).resp = s.resp := rfl
@[simp] theorem dropLatch_env : (dropLatch s).env = s.env := rfl

/-! ### `respond` -/

@[simp] theorem respond_cfg (x : Option Bool) : (respond s x).cfg = s.cfg := rfl
@[simp] theorem respond_regs (x : Option Bool) : (respond s x).regs = s.regs := rfl
@[simp] theorem respond_tstate (x : Option Bool) : (respond s x).tstate = s.tstate := rfl
@[simp] theorem respond_cb (x : Option Bool) : (respond s x).cb = s.cb := rfl
@[simp] theorem respond_inService (x : Option Bool) : (respond s x).inService = s.inService := rfl
@[simp] theorem respond_dlatch (x : Option Bool) : (respond s x).dlatch = s.dlatch := rfl
@[simp] theorem respond_resp (x : Option Bool) : (respond s x).resp = x := rfl
@[simp] theorem respond_env (x : Option Bool) : (respond s x).env = s.env := rfl

/-! ### `invoke` -/

@[simp] theorem invoke_cfg (h : Handle) : (invoke s h).cfg = s.cfg := rfl
@[simp] theorem invoke_regs (h : Handle) : (invoke s h).regs = s.regs := rfl
@[simp] theorem invoke_tstate (h : Handle) : (invoke s h).tstate = s.tstate := rfl
@[simp] theorem invoke_cb (h : Handle) : (invoke s h).cb = s.cb := rfl
@[simp] theorem invoke_inService (h : Handle) : (invoke s h).inService = s.inService := rfl
@[simp] theorem invoke_dlatch (h : Handle) : (invoke s h).dlatch = s.dlatch := rfl
@[simp] theorem invoke_resp (h : Handle) : (invoke s h).resp = s.resp := rfl
@[simp] theorem invoke_env (h : Handle) : (invoke s h).env = { s.env with invocations := s.env.invocations ++ [h] } := rfl

/-! ### `callbackReturn` -/

@[simp] theorem callbackReturn_cfg : (callbackReturn s).cfg = s.cfg := rfl
@[simp] theorem callbackReturn_regs : (callbackReturn s).regs = s.regs := rfl
@[simp] theorem callbackReturn_tstate : (callbackReturn s).tstate = s.tstate := rfl
@[simp] theorem callbackReturn_cb : (callbackReturn s).cb = s.cb := rfl
@[simp] theorem callbackReturn_inService : (callbackReturn s).inService = false := rfl
@[simp] theorem callbackReturn_dlatch : (callbackReturn s).dlatch = s.dlatch := rfl
@[simp] theorem callbackReturn_resp : (callbackReturn s).resp = s.resp := rfl
@[simp] theorem callbackReturn_env : (callbackReturn s).env = s.env := rfl

/-! ### `presentNext` -/

@[simp] theorem presentNext_cfg (w : CmdWord) : (presentNext w s).cfg = s.cfg := rfl
@[simp] theorem presentNext_regs (w : CmdWord) : (presentNext w s).regs = s.regs := rfl
@[simp] theorem presentNext_tstate (w : CmdWord) : (presentNext w s).tstate = s.tstate := rfl
@[simp] theorem presentNext_cb (w : CmdWord) : (presentNext w s).cb = s.cb := rfl
@[simp] theorem presentNext_inService (w : CmdWord) : (presentNext w s).inService = s.inService := rfl
@[simp] theorem presentNext_dlatch (w : CmdWord) : (presentNext w s).dlatch = s.dlatch := rfl
@[simp] theorem presentNext_resp (w : CmdWord) : (presentNext w s).resp = s.resp := rfl
@[simp] theorem presentNext_env (w : CmdWord) : (presentNext w s).env = { s.env with pending := .command w :: s.env.pending } := rfl

/-! ### The state after reset -/

@[simp] theorem resetOf_cfg (cfg : Config) : (State.resetOf cfg).cfg = cfg := rfl
@[simp] theorem resetOf_regs (cfg : Config) : (State.resetOf cfg).regs = cfg.initRegs := rfl
@[simp] theorem resetOf_tstate (cfg : Config) : (State.resetOf cfg).tstate = .uninitialized := rfl
@[simp] theorem resetOf_cb (cfg : Config) : (State.resetOf cfg).cb = none := rfl
@[simp] theorem resetOf_inService (cfg : Config) : (State.resetOf cfg).inService = false := rfl
@[simp] theorem resetOf_dlatch (cfg : Config) : (State.resetOf cfg).dlatch = none := rfl
@[simp] theorem resetOf_resp (cfg : Config) : (State.resetOf cfg).resp = none := rfl
@[simp] theorem resetOf_env (cfg : Config) : (State.resetOf cfg).env = .empty := rfl

end Sys2Proof.Machine
end

