-- ==== Sys2Proof/Laws/Ops.lean ====
section
/-! SUPPORT. What each shared operation can do, said once: registers by name and by address, the pin
operations, the frames of the GPIO families, callback entry. Later proofs cite these and do not unfold
the operations. -/

namespace Sys2Proof.Machine

/-! ### Registers by name -/

@[simp] theorem get_set {α : Type} (x : PerPort α) (p q : Port) (v : α) :
    (x.set p v).get q = if q = p then v else x.get q := by
  cases p <;> cases q <;> rfl

/-- Reading one register after writing one (R64). -/
@[simp] theorem regRead_regWrite (x : RegSpace) (r q : Reg) (v : Byte) :
    regRead (regWrite x r v) q = if q = r then v else regRead x q := by
  cases r <;> cases q <;> simp [regRead, regWrite]

@[simp] theorem readReg_writeReg (s : State) (r q : Reg) (v : Byte) :
    readReg (writeReg s r v) q = if q = r then v else readReg s q :=
  regRead_regWrite s.regs r q v

@[simp] theorem readReg_respond (s : State) (x : Option Bool) (r : Reg) :
    readReg (respond s x) r = readReg s r := rfl

@[simp] theorem readReg_dropLatch (s : State) (r : Reg) : readReg (dropLatch s) r = readReg s r := rfl

@[simp] theorem readReg_romFetch (s : State) (id : Fin 32) (r : Reg) :
    readReg (romFetch s id) r = readReg s r := rfl

/-- The register space is its sixteen bytes and nothing else. -/
theorem regSpace_ext {x y : RegSpace} (h : ∀ r, regRead x r = regRead y r) : x = y := by
  have hd := fun p => h (.dir p)
  have ho := fun p => h (.out p)
  have hi := fun p => h (.inp p)
  have h1 := h .tctrl
  have h2 := h .tcnt
  have h3 := h .tcmp
  have h4 := h .timsk
  obtain ⟨⟨_, _, _, _⟩, ⟨_, _, _, _⟩, ⟨_, _, _, _⟩, _, _, _, _⟩ := x
  obtain ⟨⟨_, _, _, _⟩, ⟨_, _, _, _⟩, ⟨_, _, _, _⟩, _, _, _, _⟩ := y
  have dA := hd .A; have dB := hd .B; have dC := hd .C; have dD := hd .D
  have oA := ho .A; have oB := ho .B; have oC := ho .C; have oD := ho .D
  have iA := hi .A; have iB := hi .B; have iC := hi .C; have iD := hi .D
  simp only [regRead, PerPort.get] at *
  subst_vars
  rfl

theorem mem_all (r : Reg) : r ∈ Reg.all := by
  cases r with
  | dir p => cases p <;> decide
  | out p => cases p <;> decide
  | inp p => cases p <;> decide
  | _ => decide

/-! ### Registers by address -/

/-- The sixteen addresses of a well-formed configuration are pairwise distinct (R6). -/
theorem addr_injective {cfg : Config} (h : cfg.wf = true) {r q : Reg} (e : cfg.addr r = cfg.addr q) :
    r = q := by
  have hn : (Reg.all.map cfg.addr).Nodup := by
    simp only [Config.wf, Config.wfAddresses, Bool.and_eq_true, decide_eq_true_eq] at h
    exact h.1.1.1.2
  exact List.inj_on_of_nodup_map hn (mem_all r) (mem_all q) e

/-- An address of `AW` bits (R6). -/
theorem addr_lt {cfg : Config} (h : cfg.wf = true) (r : Reg) : cfg.addr r < 2 ^ cfg.aw := by
  simp only [Config.wf, Config.wfAddresses, Bool.and_eq_true, decide_eq_true_eq, List.all_eq_true] at h
  exact h.1.1.2 r (mem_all r)

/-- The register at a register's address is that register (R60). -/
theorem regAt_addr {cfg : Config} (h : cfg.wf = true) (r : Reg) : regAt cfg (cfg.addr r) = some r := by
  unfold regAt
  cases e : Reg.all.find? (fun q => cfg.addr q == cfg.addr r) with
  | none => exact absurd (List.find?_eq_none.mp e r (mem_all r)) (by simp)
  | some q =>
    have := List.find?_some e
    have hq : q = r := addr_injective h (by simpa using this)
    rw [hq]

/-- No register stands at any other address (R65). -/
theorem regAt_none {cfg : Config} {a : Nat} (h : ∀ r, cfg.addr r ≠ a) : regAt cfg a = none := by
  simp [regAt, List.find?_eq_none, h]

/-- `MemRead` of a register's address (R63). -/
theorem memRead_addr {s : State} (h : s.cfg.wf = true) (r : Reg) :
    memRead s (s.cfg.addr r) = .ok (readReg s r) := by
  simp [memRead, regAt_addr h]

/-- `MemWrite` of a register's address, input registers apart (R64). -/
theorem memWrite_addr {s : State} (h : s.cfg.wf = true) {r : Reg} (hr : isInput r = false) (v : Byte) :
    memWrite s (s.cfg.addr r) v = .ok (writeReg s r v) := by
  simp [memWrite, regAt_addr h, hr]

/-- The same, the address taken from an equal configuration. -/
theorem memWrite_at {s : State} {cfg : Config} (hc : s.cfg = cfg) (h : cfg.wf = true) {r : Reg}
    (hr : isInput r = false) (v : Byte) :
    memWrite s (cfg.addr r) v = .ok (writeReg s r v) := by
  subst hc
  exact memWrite_addr h hr v

/-- A read-modify-write of a register's address (R70). -/
theorem memModify_addr {s : State} (h : s.cfg.wf = true) {r : Reg} (hr : isInput r = false)
    (f : Byte → Byte) :
    memModify s (s.cfg.addr r) f = .ok (writeReg s r (f (readReg s r))) := by
  simp [memModify, memRead_addr h, memWrite_addr h hr, bind, Except.bind]

/-- Everything a `MemWrite` can do: it replaces one register that is no input register. -/
theorem memWrite_cases {s t : State} {a : Nat} {v : Byte} (h : memWrite s a v = .ok t) :
    ∃ r, regAt s.cfg a = some r ∧ isInput r = false ∧ t = writeReg s r v := by
  unfold memWrite at h
  split at h
  · rename_i r hr
    split at h
    · cases h
    · rename_i hi
      cases h
      exact ⟨r, hr, by simpa using hi, rfl⟩
  · cases h

/-- Everything a read-modify-write can do. -/
theorem memModify_cases {s t : State} {a : Nat} {f : Byte → Byte} (h : memModify s a f = .ok t) :
    ∃ r, regAt s.cfg a = some r ∧ isInput r = false ∧ t = writeReg s r (f (readReg s r)) := by
  unfold memModify memRead at h
  split at h
  · rename_i r hr
    obtain ⟨q, hq, hi, rfl⟩ := memWrite_cases h
    rw [hr] at hq
    cases hq
    exact ⟨r, hr, hi, rfl⟩
  · cases h

/-! ### Masks -/

@[simp] theorem getLsbD_bit (b k : Nat) (hk : k < 8) : (bit b).getLsbD k = decide (k = b) := by
  have hb : (1#8).getLsbD (k - b) = decide (k - b = 0) := by
    rw [BitVec.getLsbD_one]; simp
  simp only [bit, BitVec.getLsbD_shiftLeft, hb, hk, decide_true, Bool.true_and]
  by_cases h : k < b
  · simp [h]; omega
  · simp [h]; omega

theorem getLsbD_setBits (m v : Byte) (k : Nat) :
    (setBits m v).getLsbD k = (v.getLsbD k || m.getLsbD k) := by
  simp [setBits]

theorem getLsbD_clearBits (m v : Byte) {k : Nat} (hk : k < 8) :
    (clearBits m v).getLsbD k = (v.getLsbD k && !m.getLsbD k) := by
  simp [clearBits, hk]

theorem getLsbD_toggleBits (m v : Byte) (k : Nat) :
    (toggleBits m v).getLsbD k = (v.getLsbD k ^^ m.getLsbD k) := by
  simp [toggleBits]

@[simp] theorem toggleBits_toggleBits (m v : Byte) : toggleBits m (toggleBits m v) = v := by
  simp [toggleBits]

/-! ### Operand forms -/

@[simp] theorem portOfNumber_number (p : Port) : portOfNumber p.number = some p := by
  cases p <;> rfl

theorem portOfNumber_none {n : Nat} (h : 4 ≤ n) : portOfNumber n = none := by
  obtain ⟨k, rfl⟩ := Nat.exists_eq_add_of_le' h
  rfl

theorem portOfNumber_some {n : Nat} {p : Port} (h : portOfNumber n = some p) : n = p.number := by
  match n, h with
  | 0, h => cases h; rfl
  | 1, h => cases h; rfl
  | 2, h => cases h; rfl
  | 3, h => cases h; rfl
  | n + 4, h => cases h

theorem number_lt (p : Port) : p.number < 4 := by cases p <;> decide

/-- Every port number in range is that of one port (R5). -/
theorem exists_number {n : Nat} (h : n < 4) : ∃ p : Port, n = p.number := by
  match n, h with
  | 0, _ => exact ⟨.A, rfl⟩
  | 1, _ => exact ⟨.B, rfl⟩
  | 2, _ => exact ⟨.C, rfl⟩
  | 3, _ => exact ⟨.D, rfl⟩

/-- `id div 8` is the port of an identifier (R34). -/
theorem portOfId_eq {id : Fin 32} {p : Port} {b : Fin 8} (h : id.val = 8 * p.number + b.val) :
    portOfId id = p := by
  have hd : id.val / 8 = p.number := by omega
  unfold portOfId
  rw [hd]
  cases p <;> rfl

/-- `id mod 8` is the bit of an identifier (R34). -/
theorem bitOfId_eq {id : Fin 32} {p : Port} {b : Fin 8} (h : id.val = 8 * p.number + b.val) :
    bitOfId id = b := by
  apply Fin.ext
  show id.val % 8 = b.val
  omega

/-- The port of an identifier has the number `id div 8` (R34). -/
theorem number_portOfId (id : Fin 32) : (portOfId id).number = id.val / 8 := by
  revert id
  decide

@[simp] theorem rom_inp (cfg : Config) (id : Fin 32) :
    (rom cfg id).inp = cfg.addr (.inp (portOfId id)) := rfl

@[simp] theorem rom_out (cfg : Config) (id : Fin 32) :
    (rom cfg id).out = cfg.addr (.out (portOfId id)) := rfl

@[simp] theorem rom_dir (cfg : Config) (id : Fin 32) :
    (rom cfg id).dir = cfg.addr (.dir (portOfId id)) := rfl

@[simp] theorem rom_bit (cfg : Config) (id : Fin 32) : (rom cfg id).bit = bitOfId id := rfl

/-! ### Pin operations -/

/-- The state a direction-set leaves (R122, R142). -/
def directed (dir : Direction) (p : Port) (m : Byte) (s : State) : State :=
  match dir with
  | .input => writeReg s (.dir p) (clearBits m (readReg s (.dir p)))
  | .output => writeReg s (.dir p) (setBits m (readReg s (.dir p)))
  | .inputWithPullup =>
    writeReg (writeReg s (.dir p) (clearBits m (readReg s (.dir p)))) (.out p)
      (setBits m (readReg s (.out p)))

/-- A direction-set at a port's addresses. -/
theorem setDirection_addr {s : State} (h : s.cfg.wf = true) (dir : Direction) (p : Port) (m : Byte) :
    setDirection dir (s.cfg.addr (.dir p)) (s.cfg.addr (.out p)) m s = .ok (directed dir p m s) := by
  cases dir with
  | input => exact memModify_addr h rfl _
  | output => exact memModify_addr h rfl _
  | inputWithPullup =>
    show Except.bind _ _ = _
    rw [memModify_addr h rfl]
    exact (memModify_addr (s := writeReg s _ _) h (r := .out p) rfl _).trans (by
      simp [directed])

/-- A level-set at a port's address (R123, R143). -/
theorem setLevel_addr {s : State} (h : s.cfg.wf = true) (level : Level) (p : Port) (m : Byte) :
    setLevel level (s.cfg.addr (.out p)) m s
      = .ok (writeReg s (.out p) (levelBits level m (readReg s (.out p)))) :=
  memModify_addr h rfl _

/-- A pin read at a port's address (R124, R145). -/
theorem readPin_addr {s : State} (h : s.cfg.wf = true) (p : Port) (b : Fin 8) :
    readPin (s.cfg.addr (.inp p)) b s = .ok (respond s (some ((readReg s (.inp p)).getLsbD b))) := by
  simp [readPin, memRead_addr h, bind, Except.bind, pure, Except.pure]

/-- An indexed command in range fetches, uses and discards (R121). -/
theorem indexed_inRange {id : Nat} (h : id < 32) (x : Option Bool)
    (use : PinDesc → State → Except Fault State) (s : State) :
    indexed id x use s
      = outcome ((use (rom s.cfg ⟨id, h⟩) (romFetch s ⟨id, h⟩)).map dropLatch) := by
  simp only [indexed, h, dif_pos, latched, romFetch_dlatch]
  simp only [bind, Except.bind, pure, Except.pure]
  cases use (rom s.cfg ⟨id, h⟩) (romFetch s ⟨id, h⟩) <;> rfl

/-- An indexed command out of range only answers (R121). -/
theorem indexed_outOfRange {id : Nat} (h : 32 ≤ id) (x : Option Bool)
    (use : PinDesc → State → Except Fault State) (s : State) :
    indexed id x use s = .next (respond s x) := by
  simp [indexed, Nat.not_lt.mpr h]

/-- A single-pin port-level command in range. -/
theorem portPin_inRange (p : Port) (b : Fin 8) (x : Option Bool)
    (use : Port → Fin 8 → State → Except Fault State) (s : State) :
    portPin p.number b.val x use s = outcome (use p b s) := by
  simp [portPin]

/-- A single-pin port-level command out of range only answers (R141). -/
theorem portPin_outOfRange {port pin : Nat} (h : 4 ≤ port ∨ 8 ≤ pin) (x : Option Bool)
    (use : Port → Fin 8 → State → Except Fault State) (s : State) :
    portPin port pin x use s = .next (respond s x) := by
  unfold portPin
  rcases h with h | h
  · simp [portOfNumber_none h]
  · cases portOfNumber port <;> simp [Nat.not_lt.mpr h]

/-- A whole-port command in range. -/
theorem wholePort_inRange (p : Port) (use : Port → State → Except Fault State) (s : State) :
    wholePort p.number use s = outcome (use p (respond s none)) := by
  simp [wholePort]

/-- A whole-port command out of range only answers (R141). -/
theorem wholePort_outOfRange {port : Nat} (h : 4 ≤ port) (use : Port → State → Except Fault State)
    (s : State) : wholePort port use s = .next (respond s none) := by
  simp [wholePort, portOfNumber_none h]

@[simp] theorem outcome_ok (s : State) : outcome (.ok s) = .next s := rfl

@[simp] theorem outcome_error (f : Fault) : outcome (.error f) = .fault f := rfl

/-! ### Callback entry -/

/-- Everything delivery can do (R207). -/
theorem deliver_cases (s : State) :
    (s.cb = none ∧ deliver s = s) ∨
    ∃ h, s.cb = some h ∧ deliver s = { invoke s h with inService := true } := by
  unfold deliver
  cases hc : s.cb with
  | none => exact .inl ⟨rfl, rfl⟩
  | some h => exact .inr ⟨h, rfl, rfl⟩

/-- Everything an environment step can do. -/
theorem environmentStep_cases (e : EnvStep) (s : State) :
    environmentStep e s = s ∨
    (∃ p v, e = .setInput p v ∧ environmentStep e s = writeReg s (.inp p) v) ∨
    (∃ v, e = .setCounter v ∧ environmentStep e s = writeReg s .tcnt v) ∨
    (∃ h, s.inService = false ∧ s.cb = some h ∧
      ((e = .compareMatch ∧ ocieOf s.cfg s.regs.timsk = true) ∨
       (e = .overflow ∧ toieOf s.cfg s.regs.timsk = true)) ∧
      environmentStep e s = { invoke s h with inService := true }) ∨
    (e = .callbackReturn ∧ s.inService = true ∧ environmentStep e s = { s with inService := false }) := by
  cases e with
  | setInput p v => exact .inr (.inl ⟨p, v, rfl, rfl⟩)
  | setCounter v => exact .inr (.inr (.inl ⟨v, rfl, rfl⟩))
  | compareMatch =>
    show signalCompare s = s ∨ _
    unfold signalCompare
    by_cases ha : admitsCompare s = true
    · have hb := ha
      simp only [admitsCompare, Bool.and_eq_true, Bool.not_eq_true'] at hb
      rcases deliver_cases s with ⟨_, hd⟩ | ⟨h, hc, hd⟩
      · exact .inl (by simp [ha, hd])
      · exact .inr (.inr (.inr (.inl ⟨h, hb.2, hc, .inl ⟨rfl, hb.1⟩, by
          simp [environmentStep, signalCompare, ha, hd]⟩)))
    · exact .inl (by simp [ha])
  | overflow =>
    show signalOverflow s = s ∨ _
    unfold signalOverflow
    by_cases ha : admitsOverflow s = true
    · have hb := ha
      simp only [admitsOverflow, Bool.and_eq_true, Bool.not_eq_true'] at hb
      rcases deliver_cases s with ⟨_, hd⟩ | ⟨h, hc, hd⟩
      · exact .inl (by simp [ha, hd])
      · exact .inr (.inr (.inr (.inl ⟨h, hb.2, hc, .inr ⟨rfl, hb.1⟩, by
          simp [environmentStep, signalOverflow, ha, hd]⟩)))
    · exact .inl (by simp [ha])
  | callbackReturn =>
    show signalReturn s = s ∨ _
    unfold signalReturn
    by_cases ha : s.inService = true
    · exact .inr (.inr (.inr (.inr ⟨rfl, ha, by simp [environmentStep, signalReturn, ha, callbackReturn]⟩)))
    · exact .inl (by simp [ha])

end Sys2Proof.Machine
end

