-- ==== Sys2Proof/Laws/Fields.lean ====
section
/-! SUPPORT. The control-register encoder and the interrupt-enable update, bit by bit (R172, R174), and the
layout facts of a well-formed configuration (R6) in a form omega reads. -/

namespace Sys2Proof.Machine

/-! ### Layout -/

/-- The positions of the control register's fields: all below 8, pairwise distinct (R6). -/
structure CtrlLayout (cfg : Config) : Prop where
  foc_lt : cfg.focB < 8
  lo_lt : cfg.wgmLoB < 8
  hi_lt : cfg.wgmHiB < 8
  com_lt : cfg.comLsb + 1 < 8
  cs_lt : cfg.csLsb + 2 < 8
  foc_lo : cfg.focB ≠ cfg.wgmLoB
  foc_hi : cfg.focB ≠ cfg.wgmHiB
  lo_hi : cfg.wgmLoB ≠ cfg.wgmHiB
  foc_com : ∀ k, k < 2 → cfg.focB ≠ cfg.comLsb + k
  lo_com : ∀ k, k < 2 → cfg.wgmLoB ≠ cfg.comLsb + k
  hi_com : ∀ k, k < 2 → cfg.wgmHiB ≠ cfg.comLsb + k
  foc_cs : ∀ k, k < 3 → cfg.focB ≠ cfg.csLsb + k
  lo_cs : ∀ k, k < 3 → cfg.wgmLoB ≠ cfg.csLsb + k
  hi_cs : ∀ k, k < 3 → cfg.wgmHiB ≠ cfg.csLsb + k
  com_cs : ∀ j k, j < 2 → k < 3 → cfg.comLsb + j ≠ cfg.csLsb + k

/-- A list that covers eight positions and has eight entries has no other entry. -/
theorem ctrlBits_lt {cfg : Config} (h : cfg.wf = true) {b : Nat} (hb : b ∈ cfg.ctrlBits) : b < 8 := by
  simp only [Config.wf, Config.wfCtrlBits, Bool.and_eq_true, decide_eq_true_eq, List.all_eq_true] at h
  have hs : List.range 8 ⊆ cfg.ctrlBits := fun x hx => h.1.2.2 x hx
  have hp : (List.range 8).Perm cfg.ctrlBits :=
    (List.subperm_of_subset List.nodup_range hs).perm_of_length_le (by simp [Config.ctrlBits])
  exact List.mem_range.mp (hp.mem_iff.mpr hb)

theorem ctrlLayout {cfg : Config} (h : cfg.wf = true) : CtrlLayout cfg := by
  have hlt := fun b hb => ctrlBits_lt h (b := b) hb
  simp only [Config.wf, Config.wfCtrlBits, Bool.and_eq_true, decide_eq_true_eq] at h
  have hn := h.1.2.1
  simp only [Config.ctrlBits, List.nodup_cons, List.mem_cons, List.not_mem_nil, or_false, not_or,
    not_false_eq_true, List.nodup_nil, and_true] at hn
  simp only [Config.ctrlBits, List.mem_cons, List.not_mem_nil, or_false, forall_eq_or_imp, forall_eq]
    at hlt
  constructor <;> omega

/-- The enable bits of the interrupt-mask register: below 8 and distinct (R6). -/
theorem enableLayout {cfg : Config} (h : cfg.wf = true) :
    cfg.ocieB < 8 ∧ cfg.toieB < 8 ∧ cfg.ocieB ≠ cfg.toieB := by
  simp only [Config.wf, Config.wfEnableBits, Bool.and_eq_true, decide_eq_true_eq] at h
  exact ⟨h.2.1.1, h.2.1.2, h.2.2⟩

/-! ### The encoder -/

theorem getLsbD_flagAt (b : Bool) (pos : Nat) {k : Nat} (hk : k < 8) :
    (flagAt b pos).getLsbD k = (decide (k = pos) && b) := by
  simp only [flagAt, BitVec.getLsbD_shiftLeft, BitVec.getLsbD_setWidth, BitVec.getLsbD_ofBool]
  by_cases h : k < pos
  · have : k ≠ pos := by omega
    simp [h, this]
  · by_cases e : k = pos
    · subst e; simp [hk]
    · have : k - pos ≠ 0 := by omega
      simp [e, this]

theorem getLsbD_fieldAt {w : Nat} (c : BitVec w) (lsb : Nat) {k : Nat} (hk : k < 8) :
    (c.setWidth 8 <<< lsb).getLsbD k = (decide (lsb ≤ k) && c.getLsbD (k - lsb)) := by
  have h8 : k - lsb < 8 := by omega
  simp only [BitVec.getLsbD_shiftLeft, BitVec.getLsbD_setWidth, hk, h8, decide_true, Bool.true_and]
  by_cases h : k < lsb
  · simp [h]
  · simp [h, Nat.not_lt.mp h]

/-- What T0INIT writes into `FOC` (R172). -/
def newFoc (cfg : Config) (mode : T0Mode) (old : Byte) : Bool :=
  match mode with
  | .normal => true
  | .ctc => cfg.pFocKeep && old.getLsbD cfg.focB
  | .fastPwm => cfg.pFocKeep && old.getLsbD cfg.focB

/-- The compare-output bits T0INIT writes (R172). -/
def newCom (mode : T0Mode) (cm : BitVec 2) : BitVec 2 :=
  match mode with
  | .normal => 0
  | .ctc => cm
  | .fastPwm => cm

/-- Every bit of the new control register (R172). -/
theorem getLsbD_encTctrl (cfg : Config) (mode : T0Mode) (ck : BitVec 3) (cm : BitVec 2) (old : Byte)
    {k : Nat} (hk : k < 8) :
    (encTctrl cfg mode ck cm old).getLsbD k =
      ((decide (k = cfg.focB) && newFoc cfg mode old) ||
       (decide (k = cfg.wgmLoB) && decide (mode = .fastPwm)) ||
       (decide (k = cfg.wgmHiB) && decide (mode ≠ .normal)) ||
       (decide (cfg.comLsb ≤ k) && (newCom mode cm).getLsbD (k - cfg.comLsb)) ||
       (decide (cfg.csLsb ≤ k) && ck.getLsbD (k - cfg.csLsb))) := by
  unfold encTctrl
  simp only [BitVec.getLsbD_or, getLsbD_flagAt _ _ hk, getLsbD_fieldAt _ _ hk]
  cases mode <;> simp [newFoc, newCom]

theorem getLsbD_field_out {w : Nat} (c : BitVec w) {lsb k : Nat} (h : ∀ j, j < w → k ≠ lsb + j) :
    (decide (lsb ≤ k) && c.getLsbD (k - lsb)) = false := by
  by_cases hl : lsb ≤ k
  · have : w ≤ k - lsb := by
      by_contra hc
      exact h (k - lsb) (by omega) (by omega)
    simp [BitVec.getLsbD_of_ge _ _ this]
  · simp [hl]

theorem encTctrl_foc {cfg : Config} (h : cfg.wf = true) (mode : T0Mode) (ck : BitVec 3) (cm : BitVec 2)
    (old : Byte) : (encTctrl cfg mode ck cm old).getLsbD cfg.focB = newFoc cfg mode old := by
  have l := ctrlLayout h
  rw [getLsbD_encTctrl _ _ _ _ _ l.foc_lt, getLsbD_field_out _ l.foc_com, getLsbD_field_out _ l.foc_cs]
  simp [l.foc_lo, l.foc_hi]

theorem encTctrl_wgmLo {cfg : Config} (h : cfg.wf = true) (mode : T0Mode) (ck : BitVec 3)
    (cm : BitVec 2) (old : Byte) :
    (encTctrl cfg mode ck cm old).getLsbD cfg.wgmLoB = decide (mode = .fastPwm) := by
  have l := ctrlLayout h
  rw [getLsbD_encTctrl _ _ _ _ _ l.lo_lt, getLsbD_field_out _ l.lo_com, getLsbD_field_out _ l.lo_cs]
  simp [l.foc_lo.symm, l.lo_hi]

theorem encTctrl_wgmHi {cfg : Config} (h : cfg.wf = true) (mode : T0Mode) (ck : BitVec 3)
    (cm : BitVec 2) (old : Byte) :
    (encTctrl cfg mode ck cm old).getLsbD cfg.wgmHiB = decide (mode ≠ .normal) := by
  have l := ctrlLayout h
  rw [getLsbD_encTctrl _ _ _ _ _ l.hi_lt, getLsbD_field_out _ l.hi_com, getLsbD_field_out _ l.hi_cs]
  simp [l.foc_hi.symm, l.lo_hi.symm]

theorem encTctrl_com {cfg : Config} (h : cfg.wf = true) (mode : T0Mode) (ck : BitVec 3)
    (cm : BitVec 2) (old : Byte) {k : Nat} (hk : k < 2) :
    (encTctrl cfg mode ck cm old).getLsbD (cfg.comLsb + k) = (newCom mode cm).getLsbD k := by
  have l := ctrlLayout h
  have hlt := l.com_lt
  rw [getLsbD_encTctrl _ _ _ _ _ (by omega), getLsbD_field_out ck (fun j hj => l.com_cs k j hk hj)]
  simp [(l.foc_com k hk).symm, (l.lo_com k hk).symm, (l.hi_com k hk).symm]

theorem encTctrl_cs {cfg : Config} (h : cfg.wf = true) (mode : T0Mode) (ck : BitVec 3)
    (cm : BitVec 2) (old : Byte) {k : Nat} (hk : k < 3) :
    (encTctrl cfg mode ck cm old).getLsbD (cfg.csLsb + k) = ck.getLsbD k := by
  have l := ctrlLayout h
  have hlt := l.cs_lt
  rw [getLsbD_encTctrl _ _ _ _ _ (by omega),
    getLsbD_field_out (newCom mode cm) (fun j hj => (l.com_cs j k hj hk).symm)]
  simp [(l.foc_cs k hk).symm, (l.lo_cs k hk).symm, (l.hi_cs k hk).symm]

/-! ### Masking and enables -/

theorem getLsbD_maskClk (clk : Byte) {k : Nat} (hk : k < 3) :
    (maskClk clk).getLsbD k = clk.getLsbD k := by
  simp only [maskClk, BitVec.getLsbD_setWidth, BitVec.getLsbD_and]
  interval_cases k <;> simp

theorem getLsbD_maskCom (com : Byte) {k : Nat} (hk : k < 2) :
    (maskCom com).getLsbD k = com.getLsbD k := by
  simp only [maskCom, BitVec.getLsbD_setWidth, BitVec.getLsbD_and]
  interval_cases k <;> simp

/-- Every bit of the new interrupt-mask register (R174). -/
theorem getLsbD_ieUpd (cfg : Config) (b : Nat) (ie : Bool) (t : Byte) {k : Nat} (hk : k < 8) :
    (ieUpd cfg b ie t).getLsbD k =
      if k = b then (ie || (!cfg.pIeAssign && t.getLsbD k)) else t.getLsbD k := by
  have hb := getLsbD_bit b k hk
  unfold ieUpd
  by_cases e : k = b
  · subst e
    cases ie <;> cases cfg.pIeAssign <;> simp [getLsbD_setBits, getLsbD_clearBits _ _ hk, hb]
  · cases ie <;> cases cfg.pIeAssign <;> simp [getLsbD_setBits, getLsbD_clearBits _ _ hk, hb, e]

end Sys2Proof.Machine
end

