-- ==== Sys2Proof/Laws/Meanings.lean ====
section
/-! SUPPORT. What each command's meaning answers, as one equation under a well-formed configuration, over the
named updates of the state; and the one inversion of a step. Later proofs cite these and do not unfold a
meaning. -/

namespace Sys2Proof.Machine

/-! ### Indexed commands -/

theorem pinId_lt (p : Port) (b : Fin 8) : pinId p b < 32 := by
  have := number_lt p
  unfold pinId
  omega

theorem portOfId_pinId (p : Port) (b : Fin 8) : portOfId ⟨pinId p b, pinId_lt p b⟩ = p :=
  portOfId_eq rfl

theorem bitOfId_pinId (p : Port) (b : Fin 8) : bitOfId ⟨pinId p b, pinId_lt p b⟩ = b :=
  bitOfId_eq (p := p) rfl

/-- Every identifier in range is that of one pin of one port (R22). -/
theorem exists_pinId {id : Nat} (h : id < 32) : ∃ p b, id = pinId p b := by
  refine ⟨portOfId ⟨id, h⟩, bitOfId ⟨id, h⟩, ?_⟩
  have hp := number_portOfId ⟨id, h⟩
  show id = 8 * (portOfId ⟨id, h⟩).number + id % 8
  rw [hp]
  simp only
  omega

/-- The identifier of pin `b` of port `p`. -/
abbrev pinFin (p : Port) (b : Fin 8) : Fin 32 := ⟨pinId p b, pinId_lt p b⟩

theorem exec_pindir_inRange {s : State} (h : s.cfg.wf = true) (p : Port) (b : Fin 8) (dir : Direction) :
    exec (.pindir (pinId p b) dir) s
      = .next (dropLatch (directed dir p (bit b) (respond (romFetch s (pinFin p b)) none))) := by
  simp only [exec, execPindir]
  rw [indexed_inRange (pinId_lt p b)]
  have := setDirection_addr (s := respond (romFetch s (pinFin p b)) none) h dir p (bit b)
  simp only [rom_dir, rom_out, rom_bit, portOfId_pinId, bitOfId_pinId]
  simp only [respond_cfg, romFetch_cfg] at this
  rw [this]
  rfl

theorem exec_pinset_inRange {s : State} (h : s.cfg.wf = true) (p : Port) (b : Fin 8) (level : Level) :
    exec (.pinset (pinId p b) level) s
      = .next (dropLatch (writeReg (respond (romFetch s (pinFin p b)) none) (.out p)
          (levelBits level (bit b) (readReg s (.out p))))) := by
  simp only [exec, execPinset]
  rw [indexed_inRange (pinId_lt p b)]
  have := setLevel_addr (s := respond (romFetch s (pinFin p b)) none) h level p (bit b)
  simp only [rom_out, rom_bit, portOfId_pinId, bitOfId_pinId]
  simp only [respond_cfg, romFetch_cfg] at this
  rw [this]
  rfl

theorem exec_pinget_inRange {s : State} (h : s.cfg.wf = true) (p : Port) (b : Fin 8) :
    exec (.pinget (pinId p b)) s
      = .next (dropLatch (respond (romFetch s (pinFin p b)) (some ((readReg s (.inp p)).getLsbD b)))) := by
  simp only [exec, execPinget]
  rw [indexed_inRange (pinId_lt p b)]
  have := readPin_addr (s := romFetch s (pinFin p b)) h p b
  simp only [rom_inp, rom_bit, portOfId_pinId, bitOfId_pinId]
  simp only [romFetch_cfg] at this
  rw [this]
  rfl

/-! ### Port-level commands -/

theorem exec_ppdir_inRange {s : State} (h : s.cfg.wf = true) (p : Port) (b : Fin 8) (dir : Direction) :
    exec (.ppdir p.number b dir) s = .next (directed dir p (bit b) (respond s none)) := by
  simp only [exec, execPpdir]
  rw [portPin_inRange]
  have := setDirection_addr (s := respond s none) h dir p (bit b)
  simp only [respond_cfg] at this
  rw [this]
  rfl

theorem exec_ppset_inRange {s : State} (h : s.cfg.wf = true) (p : Port) (b : Fin 8) (level : Level) :
    exec (.ppset p.number b level) s
      = .next (writeReg (respond s none) (.out p) (levelBits level (bit b) (readReg s (.out p)))) := by
  simp only [exec, execPpset]
  rw [portPin_inRange]
  have := setLevel_addr (s := respond s none) h level p (bit b)
  simp only [respond_cfg] at this
  rw [this]
  rfl

theorem exec_pptgl_inRange {s : State} (h : s.cfg.wf = true) (p : Port) (b : Fin 8) :
    exec (.pptgl p.number b) s
      = .next (writeReg (respond s none) (.out p) (toggleBits (bit b) (readReg s (.out p)))) := by
  simp only [exec, execPptgl]
  rw [portPin_inRange]
  have := memModify_addr (s := respond s none) (r := .out p) h rfl (toggleBits (bit b))
  simp only [respond_cfg] at this
  rw [this]
  rfl

theorem exec_ppget_inRange {s : State} (h : s.cfg.wf = true) (p : Port) (b : Fin 8) :
    exec (.ppget p.number b) s = .next (respond s (some ((readReg s (.inp p)).getLsbD b))) := by
  simp only [exec, execPpget]
  rw [portPin_inRange, readPin_addr h]
  rfl

theorem exec_portdir_inRange {s : State} (h : s.cfg.wf = true) (p : Port) (val : Byte) :
    exec (.portdir p.number val) s = .next (writeReg (respond s none) (.dir p) val) := by
  simp only [exec, execPortdir]
  rw [wholePort_inRange, memWrite_addr (s := respond s none) h rfl]
  rfl

theorem exec_portset_inRange {s : State} (h : s.cfg.wf = true) (p : Port) (val : Byte) :
    exec (.portset p.number val) s = .next (writeReg (respond s none) (.out p) val) := by
  simp only [exec, execPortset]
  rw [wholePort_inRange, memWrite_addr (s := respond s none) h rfl]
  rfl

/-! ### Timer0 commands -/

/-- The register space T0INIT leaves (R173). -/
def timerRegs (mode : T0Mode) (ie : Bool) (clk com tick init : Byte) (s : State) : RegSpace :=
  { s.regs with
    tcnt := init
    tcmp := match mode with | .normal => s.regs.tcmp | .ctc => tick | .fastPwm => tick
    timsk := match mode with
      | .normal => ieUpd s.cfg s.cfg.toieB ie s.regs.timsk
      | .ctc => ieUpd s.cfg s.cfg.ocieB ie s.regs.timsk
      | .fastPwm => s.regs.timsk
    tctrl := encTctrl s.cfg mode (maskClk clk) (maskCom com) s.regs.tctrl }

/-- The state T0INIT leaves (R173). -/
def initialised (mode : T0Mode) (ie : Bool) (clk com tick init : Byte) (s : State) : State :=
  { s with
    regs := timerRegs mode ie clk com tick init s
    tstate := modeState mode
    resp := none }

section
variable (mode : T0Mode) (ie : Bool) (clk com tick init : Byte) (s : State)

@[simp] theorem initialised_cfg : (initialised mode ie clk com tick init s).cfg = s.cfg := rfl
@[simp] theorem initialised_regs :
    (initialised mode ie clk com tick init s).regs = timerRegs mode ie clk com tick init s := rfl
@[simp] theorem initialised_tstate :
    (initialised mode ie clk com tick init s).tstate = modeState mode := rfl
@[simp] theorem initialised_cb : (initialised mode ie clk com tick init s).cb = s.cb := rfl
@[simp] theorem initialised_inService :
    (initialised mode ie clk com tick init s).inService = s.inService := rfl
@[simp] theorem initialised_dlatch : (initialised mode ie clk com tick init s).dlatch = s.dlatch := rfl
@[simp] theorem initialised_resp : (initialised mode ie clk com tick init s).resp = none := rfl
@[simp] theorem initialised_env : (initialised mode ie clk com tick init s).env = s.env := rfl

@[simp] theorem initialised_tcnt : readReg (initialised mode ie clk com tick init s) .tcnt = init := rfl

@[simp] theorem initialised_tctrl : readReg (initialised mode ie clk com tick init s) .tctrl
    = encTctrl s.cfg mode (maskClk clk) (maskCom com) (readReg s .tctrl) := rfl

theorem initialised_tcmp_normal :
    readReg (initialised .normal ie clk com tick init s) .tcmp = readReg s .tcmp := rfl

theorem initialised_tcmp (h : mode ≠ .normal) :
    readReg (initialised mode ie clk com tick init s) .tcmp = tick := by
  cases mode with
  | normal => exact absurd rfl h
  | ctc => rfl
  | fastPwm => rfl

theorem initialised_timsk_normal : readReg (initialised .normal ie clk com tick init s) .timsk
    = ieUpd s.cfg s.cfg.toieB ie (readReg s .timsk) := rfl

theorem initialised_timsk_ctc : readReg (initialised .ctc ie clk com tick init s) .timsk
    = ieUpd s.cfg s.cfg.ocieB ie (readReg s .timsk) := rfl

theorem initialised_timsk_fastPwm : readReg (initialised .fastPwm ie clk com tick init s) .timsk
    = readReg s .timsk := rfl

/-- T0INIT touches no port register (R178). -/
theorem initialised_other {r : Reg} (h1 : r ≠ .tctrl) (h2 : r ≠ .tcnt) (h3 : r ≠ .tcmp)
    (h4 : r ≠ .timsk) : readReg (initialised mode ie clk com tick init s) r = readReg s r := by
  cases r with
  | dir p => rfl
  | out p => rfl
  | inp p => rfl
  | tctrl => exact absurd rfl h1
  | tcnt => exact absurd rfl h2
  | tcmp => exact absurd rfl h3
  | timsk => exact absurd rfl h4

end

/-- The encoder does not look at the old content where T0INIT does not read it (R172, R173). -/
theorem encTctrl_old_unused (cfg : Config) (mode : T0Mode) (ck : BitVec 3) (cm : BitVec 2) (old : Byte)
    (h : mode = .normal ∨ cfg.pFocKeep = false) :
    encTctrl cfg mode ck cm 0x00 = encTctrl cfg mode ck cm old := by
  rcases h with rfl | h
  · rfl
  · unfold encTctrl
    simp [h]

theorem exec_t0init {s : State} (h : s.cfg.wf = true) (mode : T0Mode) (ie : Bool)
    (clk com tick init : Byte) :
    exec (.t0init mode ie clk com tick init) s
      = .next (initialised mode ie clk com tick init s) := by
  have hold : ∃ old, oldTctrl mode s = .ok old ∧
      encTctrl s.cfg mode (maskClk clk) (maskCom com) old
        = encTctrl s.cfg mode (maskClk clk) (maskCom com) s.regs.tctrl := by
    by_cases hk : s.cfg.pFocKeep = true
    · cases mode with
      | normal => exact ⟨_, rfl, encTctrl_old_unused _ _ _ _ _ (.inl rfl)⟩
      | ctc => exact ⟨_, by simp [oldTctrl, hk, memRead_addr h]; rfl, rfl⟩
      | fastPwm => exact ⟨_, by simp [oldTctrl, hk, memRead_addr h]; rfl, rfl⟩
    · have hf : s.cfg.pFocKeep = false := by simpa using hk
      exact ⟨0x00, by cases mode <;> simp [oldTctrl, hf], encTctrl_old_unused _ _ _ _ _ (.inr hf)⟩
  obtain ⟨old, ho, he⟩ := hold
  have w (t : State) (ht : t.cfg = s.cfg) (r : Reg) (hr : isInput r = false) (v : Byte) :
      memWrite t (t.cfg.addr r) v = .ok (writeReg t r v) := memWrite_addr (ht ▸ h) hr v
  have m (t : State) (ht : t.cfg = s.cfg) (r : Reg) (hr : isInput r = false) (f : Byte → Byte) :
      memModify t (t.cfg.addr r) f = .ok (writeReg t r (f (readReg t r))) := memModify_addr (ht ▸ h) hr f
  simp only [exec, execT0init, ho, bind, Except.bind, pure, Except.pure, w s rfl .tcnt rfl]
  cases mode with
  | normal =>
    simp only [initCompare, initEnable]
    rw [m (writeReg s .tcnt init) rfl .timsk rfl]
    simp only
    rw [w (writeReg (writeReg s .tcnt init) .timsk _) rfl .tctrl rfl]
    simp only [outcome_ok, writeReg_cfg, he]
    rfl
  | ctc =>
    simp only [initCompare, initEnable]
    rw [w (writeReg s .tcnt init) rfl .tcmp rfl]
    simp only
    rw [m (writeReg (writeReg s .tcnt init) .tcmp tick) rfl .timsk rfl]
    simp only
    rw [w (writeReg (writeReg (writeReg s .tcnt init) .tcmp tick) .timsk _) rfl .tctrl rfl]
    simp only [outcome_ok, writeReg_cfg, he]
    rfl
  | fastPwm =>
    simp only [initCompare, initEnable]
    rw [w (writeReg s .tcnt init) rfl .tcmp rfl]
    simp only
    rw [w (writeReg (writeReg s .tcnt init) .tcmp tick) rfl .tctrl rfl]
    simp only [outcome_ok, writeReg_cfg, he]
    rfl

theorem exec_t0duty {s : State} (h : s.cfg.wf = true) (value : Byte) :
    exec (.t0duty value) s = .next (writeReg (respond s none) .tcmp value) := by
  simp only [exec, execT0duty]
  rw [memWrite_at (s := respond s none) (cfg := s.cfg) rfl h rfl]
  rfl

/-! ### T0CB -/

/-- An operand of `CBW` bits is its own handle (R177). -/
theorem handleOf_of_lt {cfg : Config} {handle : Handle} (h : handle < 2 ^ cfg.cbw) :
    handleOf cfg handle = handle := if_pos h

/-- A handle has `CBW` bits (R37). -/
theorem handleOf_lt (cfg : Config) (handle : Handle) : handleOf cfg handle < 2 ^ cfg.cbw := by
  unfold handleOf
  split
  · assumption
  · exact (Config.wideHandle cfg.cbw handle).isLt

/-- A filled slot holds the handle, which is not 0 (R37). -/
theorem slotOf_eq_some {h h' : Handle} (e : slotOf h = some h') : h' = h ∧ h ≠ 0 := by
  unfold slotOf at e
  split at e
  · cases e
  · cases e; exact ⟨rfl, ‹_›⟩

theorem exec_t0cb {s : State} (h : s.inService = false) (handle : Handle) :
    exec (.t0cb handle) s = .next (respond { s with cb := slotOf (handleOf s.cfg handle) } none) := by
  simp [exec, execT0cb, h]

/-! ### One step -/

/-- Everything a step can do: stand still, perform the decoded command or the registration presented, or let the environment act. -/
theorem step_cases {s t : State} (h : step s = .next t) :
    (s.env.pending = [] ∧ t = s) ∨
    (∃ x rest i, s.env.pending = x :: rest ∧
      ((∃ w, x = .command w ∧ decode w = .ok i) ∨ ∃ handle, x = .register handle ∧ i = .t0cb handle) ∧
      exec i { s with env := { s.env with pending := rest, ci := s.env.ci + 1 } } = .next t) ∨
    (∃ e rest, s.env.pending = .environment e :: rest ∧
      t = environmentStep e { s with env := { s.env with pending := rest } }) := by
  unfold step nextStimulus at h
  cases hp : s.env.pending with
  | nil =>
    rw [hp] at h
    cases h
    exact .inl ⟨rfl, rfl⟩
  | cons x rest =>
    cases x with
    | command w =>
      rw [hp] at h
      simp only at h
      cases hd : decode w with
      | ok i =>
        rw [hd] at h
        exact .inr (.inl ⟨_, rest, i, rfl, .inl ⟨w, rfl, hd⟩, h⟩)
      | error why =>
        rw [hd] at h
        cases h
    | register handle =>
      rw [hp] at h
      exact .inr (.inl ⟨_, rest, _, rfl, .inr ⟨handle, rfl, rfl⟩, h⟩)
    | environment e =>
      rw [hp] at h
      cases h
      exact .inr (.inr ⟨e, rest, rfl, rfl⟩)

end Sys2Proof.Machine
end

