-- ==== Sys2Proof/Laws/Frame.lean ====
section
/-! SUPPORT. What no command changes, in any state and under any configuration: the parameters, what stands
around the block, and whether a callback is in service. -/

namespace Sys2Proof.Machine

/-- The second state has the parameters, the surroundings and the service flag of the first. -/
structure Keeps (s t : State) : Prop where
  cfg : t.cfg = s.cfg
  env : t.env = s.env
  inService : t.inService = s.inService

theorem Keeps.trans {s t u : State} (h : Keeps s t) (h' : Keeps t u) : Keeps s u :=
  ⟨h'.cfg.trans h.cfg, h'.env.trans h.env, h'.inService.trans h.inService⟩

theorem keeps_respond (s : State) (x : Option Bool) : Keeps s (respond s x) := ⟨rfl, rfl, rfl⟩

theorem memWrite_keeps {s t : State} {a : Nat} {v : Byte} (h : memWrite s a v = .ok t) : Keeps s t := by
  obtain ⟨r, _, _, rfl⟩ := memWrite_cases h
  exact ⟨rfl, rfl, rfl⟩

theorem memModify_keeps {s t : State} {a : Nat} {f : Byte → Byte} (h : memModify s a f = .ok t) :
    Keeps s t := by
  obtain ⟨r, _, _, rfl⟩ := memModify_cases h
  exact ⟨rfl, rfl, rfl⟩

theorem setDirection_keeps {dir : Direction} {aDir aOut : Nat} {m : Byte} {s t : State}
    (h : setDirection dir aDir aOut m s = .ok t) : Keeps s t := by
  cases dir with
  | input => exact memModify_keeps h
  | output => exact memModify_keeps h
  | inputWithPullup =>
    simp only [setDirection, bind, Except.bind] at h
    split at h
    · cases h
    · rename_i u hu
      exact (memModify_keeps hu).trans (memModify_keeps h)

theorem readPin_keeps {a : Nat} {b : Fin 8} {s t : State} (h : readPin a b s = .ok t) : Keeps s t := by
  simp only [readPin, bind, Except.bind, pure, Except.pure] at h
  split at h
  · cases h
  · cases h
    exact keeps_respond s _

theorem outcome_keeps {x : Except Fault State} {s t : State} (h : outcome x = .next t)
    (hx : ∀ u, x = .ok u → Keeps s u) : Keeps s t := by
  cases x with
  | ok u => cases h; exact hx _ rfl
  | error f => cases h

theorem indexed_keeps {id : Nat} {x : Option Bool} {use : PinDesc → State → Except Fault State}
    {s t : State} (h : indexed id x use s = .next t)
    (hu : ∀ d u v, use d u = .ok v → Keeps u v) : Keeps s t := by
  by_cases hid : id < 32
  · rw [indexed_inRange hid] at h
    refine outcome_keeps h fun w hw => ?_
    cases e : use (rom s.cfg ⟨id, hid⟩) (romFetch s ⟨id, hid⟩) with
    | error f => rw [e] at hw; cases hw
    | ok v =>
      rw [e] at hw
      cases hw
      have k := hu _ _ _ e
      exact ⟨k.cfg, k.env, k.inService⟩
  · rw [indexed_outOfRange (Nat.not_lt.mp hid)] at h
    cases h
    exact keeps_respond s _

theorem portPin_keeps {port pin : Nat} {x : Option Bool} {use : Port → Fin 8 → State → Except Fault State}
    {s t : State} (h : portPin port pin x use s = .next t)
    (hu : ∀ p b v, use p b s = .ok v → Keeps s v) : Keeps s t := by
  unfold portPin at h
  split at h
  · split at h
    · exact outcome_keeps h (hu _ _)
    · cases h; exact keeps_respond s _
  · cases h; exact keeps_respond s _

theorem wholePort_keeps {port : Nat} {use : Port → State → Except Fault State} {s t : State}
    (h : wholePort port use s = .next t) (hu : ∀ p u v, use p u = .ok v → Keeps u v) : Keeps s t := by
  unfold wholePort at h
  split at h
  · exact outcome_keeps h fun v hv => (keeps_respond s none).trans (hu _ _ _ hv)
  · cases h; exact keeps_respond s _

theorem execT0init_keeps {mode : T0Mode} {ie : Bool} {clk com tick init : Byte} {s t : State}
    (h : execT0init mode ie clk com tick init s = .next t) : Keeps s t := by
  refine outcome_keeps h fun u hu => ?_
  simp only [bind, Except.bind, pure, Except.pure] at hu
  split at hu; · cases hu
  split at hu; · cases hu
  rename_i s1 h1
  split at hu; · cases hu
  rename_i s2 h2
  split at hu; · cases hu
  rename_i s3 h3
  split at hu; · cases hu
  rename_i s4 h4
  cases hu
  have k2 : Keeps s1 s2 := by
    cases mode with
    | normal => cases h2; exact ⟨rfl, rfl, rfl⟩
    | ctc => exact memWrite_keeps h2
    | fastPwm => exact memWrite_keeps h2
  have k3 : Keeps s2 s3 := by
    cases mode with
    | normal => exact memModify_keeps h3
    | ctc => exact memModify_keeps h3
    | fastPwm => cases h3; exact ⟨rfl, rfl, rfl⟩
  have k := (memWrite_keeps h1).trans (k2.trans (k3.trans (memWrite_keeps h4)))
  exact ⟨k.cfg, k.env, k.inService⟩

/-- No command changes the parameters, the surroundings or the service flag. -/
theorem exec_keeps {i : Instr} {s t : State} (h : exec i s = .next t) : Keeps s t := by
  cases i with
  | pindir id dir =>
    simp only [exec, execPindir] at h
    exact indexed_keeps h fun d u v hv => (keeps_respond u none).trans (setDirection_keeps hv)
  | pinset id level =>
    simp only [exec, execPinset] at h
    exact indexed_keeps h fun d u v hv => (keeps_respond u none).trans (memModify_keeps hv)
  | pinget id =>
    simp only [exec, execPinget] at h
    exact indexed_keeps h fun d u v hv => readPin_keeps hv
  | ppdir port pin dir =>
    simp only [exec, execPpdir] at h
    exact portPin_keeps h fun p b v hv => (keeps_respond s none).trans (setDirection_keeps hv)
  | ppset port pin level =>
    simp only [exec, execPpset] at h
    exact portPin_keeps h fun p b v hv => (keeps_respond s none).trans (memModify_keeps hv)
  | pptgl port pin =>
    simp only [exec, execPptgl] at h
    exact portPin_keeps h fun p b v hv => (keeps_respond s none).trans (memModify_keeps hv)
  | ppget port pin =>
    simp only [exec, execPpget] at h
    exact portPin_keeps h fun p b v hv => readPin_keeps hv
  | portdir port val =>
    simp only [exec, execPortdir] at h
    exact wholePort_keeps h fun p u v hv => memWrite_keeps hv
  | portset port val =>
    simp only [exec, execPortset] at h
    exact wholePort_keeps h fun p u v hv => memWrite_keeps hv
  | t0init mode ie clk com tick init =>
    simp only [exec] at h
    exact execT0init_keeps h
  | t0duty value =>
    simp only [exec, execT0duty] at h
    exact outcome_keeps h fun u hu => (keeps_respond s none).trans (memWrite_keeps hu)
  | t0cb handle =>
    simp only [exec, execT0cb] at h
    split at h
    · cases h
    · cases h; exact ⟨rfl, rfl, rfl⟩

end Sys2Proof.Machine
end

