-- ==== Sys2Proof/Laws/PerInstr.lean ====
section
/-! SUPPORT. Facts about every command as syntax, one lemma a constructor. -/

namespace Sys2Proof.Laws.RowMatch

/-- The encoded word of a command spells its own row of the opcode table (R97). -/
def Statement (i : Instr) : Prop := ∃ r ∈ opcodeTable, r.op = i.op ∧ r.spells (encode i) = true

/-- The encoded word spells a row as soon as its positions, masked, are the row's. -/
theorem of_row {i : Instr} (r : OpRow) (hr : r ∈ opcodeTable) (ho : r.op = i.op)
    (hs : i.fill.op &&& (positions r.mask).op = (positions r.value).op ∧
      i.fill.a &&& (positions r.mask).a = (positions r.value).a ∧
      i.fill.b &&& (positions r.mask).b = (positions r.value).b ∧
      i.fill.c &&& (positions r.mask).c = (positions r.value).c ∧
      i.fill.d &&& (positions r.mask).d = (positions r.value).d ∧
      i.fill.e &&& (positions r.mask).e = (positions r.value).e) : Statement i :=
  ⟨r, hr, ho, by rw [spells_iff, encode, positions_assemble]; exact hs⟩

theorem pindir (id : Nat) (dir : Direction) :
    Statement (.pindir id dir) :=
  of_row ⟨.pindir, 0xFF0000FFFFFF, 0x100000000000⟩ (by decide) rfl (by simp [Instr.fill, Instr.op, Op.opcode, positions])

theorem pinset (id : Nat) (level : Level) :
    Statement (.pinset id level) :=
  of_row ⟨.pinset, 0xFF0000FFFFFF, 0x110000000000⟩ (by decide) rfl (by simp [Instr.fill, Instr.op, Op.opcode, positions])

theorem pinget (id : Nat) :
    Statement (.pinget id) :=
  of_row ⟨.pinget, 0xFF00FFFFFFFF, 0x120000000000⟩ (by decide) rfl (by simp [Instr.fill, Instr.op, Op.opcode, positions])

theorem ppdir (port pin : Nat) (dir : Direction) :
    Statement (.ppdir port pin dir) :=
  of_row ⟨.ppdir, 0xFF000000FFFF, 0x200000000000⟩ (by decide) rfl (by simp [Instr.fill, Instr.op, Op.opcode, positions])

theorem ppset (port pin : Nat) (level : Level) :
    Statement (.ppset port pin level) :=
  of_row ⟨.ppset, 0xFF000000FFFF, 0x210000000000⟩ (by decide) rfl (by simp [Instr.fill, Instr.op, Op.opcode, positions])

theorem pptgl (port pin : Nat) :
    Statement (.pptgl port pin) :=
  of_row ⟨.pptgl, 0xFF0000FFFFFF, 0x220000000000⟩ (by decide) rfl (by simp [Instr.fill, Instr.op, Op.opcode, positions])

theorem ppget (port pin : Nat) :
    Statement (.ppget port pin) :=
  of_row ⟨.ppget, 0xFF0000FFFFFF, 0x230000000000⟩ (by decide) rfl (by simp [Instr.fill, Instr.op, Op.opcode, positions])

theorem portdir (port : Nat) (val : Byte) :
    Statement (.portdir port val) :=
  of_row ⟨.portdir, 0xFF0000FFFFFF, 0x240000000000⟩ (by decide) rfl (by simp [Instr.fill, Instr.op, Op.opcode, positions])

theorem portset (port : Nat) (val : Byte) :
    Statement (.portset port val) :=
  of_row ⟨.portset, 0xFF0000FFFFFF, 0x250000000000⟩ (by decide) rfl (by simp [Instr.fill, Instr.op, Op.opcode, positions])

theorem t0init (mode : T0Mode) (ie : Bool) (clk com tick init : Byte) :
    Statement (.t0init mode ie clk com tick init) :=
  of_row ⟨.t0init, 0xFFF800000000, 0x300000000000⟩ (by decide) rfl (by simp [Instr.fill, Instr.op, Op.opcode, positions])

theorem t0duty (value : Byte) :
    Statement (.t0duty value) :=
  of_row ⟨.t0duty, 0xFF00FFFFFFFF, 0x310000000000⟩ (by decide) rfl (by simp [Instr.fill, Instr.op, Op.opcode, positions])

theorem t0cb (handle : Handle) :
    Statement (.t0cb handle) :=
  of_row ⟨.t0cb, 0xFF0000FFFFFF, 0x320000000000⟩ (by decide) rfl (by simp [Instr.fill, Instr.op, Op.opcode, positions])

end Sys2Proof.Laws.RowMatch
end

