-- ==== Sys2Proof/Tests/Slice0.lean ====
section
/-! SUPPORT. Tests on fixed values, each expected result taken from 95_test_vectors.md (its vector is named), and
for every obligation with hypotheses a state and operands that meet all of them. -/

namespace Sys2Proof.Tests

open Sys2Proof.Machine

/-! ## Helpers -/

/-- All registers zero. -/
abbrev zeros : RegSpace := Config.zeroRegs

/-- The machine after reset with other register contents. -/
def withRegs (x : RegSpace) : State := { State.reset with regs := x }

/-- A machine under other parameters. -/
def under (cfg : Config) (x : RegSpace) : State := { State.resetOf cfg with regs := x }

/-- A machine that waits for the given stimuli. -/
def facing (l : List Stimulus) (s : State) : State := { s with env := { s.env with pending := l } }

/-- The next state of an outcome, none for a stop. -/
def result : Host.Outcome State Fault Refusal → Option State
  | .next t => some t
  | .fault _ => none
  | .refused _ => none

/-- The refusal of an outcome. -/
def refusal : Host.Outcome State Fault Refusal → Option Refusal
  | .next _ => none
  | .fault _ => none
  | .refused r => some r

/-- The register space after a command. -/
def regsAfter (i : Instr) (s : State) : Option RegSpace := (result (exec i s)).map State.regs

/-- The response after a command. -/
def respAfter (i : Instr) (s : State) : Option (Option Bool) := (result (exec i s)).map State.resp

/-- `P_FOC_KEEP` true. -/
def keeping : Config := { Config.default with pFocKeep := true }

/-- `P_IE_ASSIGN` false. -/
def setOnly : Config := { Config.default with pIeAssign := false }

/-- `CBW` 8 and `CBW` 32. -/
def narrowHandles : Config := { Config.default with cbw := 8 }
def wideHandles : Config := { Config.default with cbw := 32 }

/-- Another layout that meets R6: other addresses, `AW` 5, other bit positions. -/
def otherLayout : Config :=
  { Config.default with
    aw := 5
    aDir := ⟨0, 1, 2, 3⟩, aOut := ⟨4, 5, 6, 7⟩, aIn := ⟨8, 9, 10, 11⟩
    aTctrl := 12, aTcnt := 13, aTcmp := 14, aTimsk := 31
    focB := 0, wgmLoB := 1, wgmHiB := 2, comLsb := 3, csLsb := 5, ocieB := 7, toieB := 6 }

/-! ## Well-formedness: each check refuses an ill-formed command -/

theorem test_wf_refuses_wide_identifiers :
    (Instr.pindir 256 .input).wf = false ∧ (Instr.pinset 256 .low).wf = false ∧
    (Instr.pinget 256).wf = false := by decide

theorem test_wf_refuses_wide_ports :
    (Instr.ppdir 256 0 .input).wf = false ∧ (Instr.ppset 256 0 .low).wf = false ∧
    (Instr.pptgl 256 0).wf = false ∧ (Instr.ppget 256 0).wf = false ∧
    (Instr.portdir 256 0).wf = false ∧ (Instr.portset 256 0).wf = false := by decide

theorem test_wf_refuses_wide_pins :
    (Instr.ppdir 0 256 .input).wf = false ∧ (Instr.ppset 0 256 .low).wf = false ∧
    (Instr.pptgl 0 256).wf = false ∧ (Instr.ppget 0 256).wf = false := by decide

theorem test_config_default_wf : Config.default.wf = true := by decide

theorem test_config_other_wf : otherLayout.wf = true := by decide

theorem test_config_refuses :
    ({ Config.default with aw := 4 } : Config).wf = false ∧
    ({ Config.default with aTcnt := 0x53 } : Config).wf = false ∧
    ({ Config.default with aTcnt := 0x10000 } : Config).wf = false ∧
    ({ Config.default with csLsb := 1 } : Config).wf = false ∧
    ({ Config.default with focB := 8 } : Config).wf = false ∧
    ({ Config.default with toieB := 1 } : Config).wf = false ∧
    ({ Config.default with ocieB := 8 } : Config).wf = false := by decide

theorem test_wf_refuses_wide_handles :
    (Instr.t0cb 65536).wf = false ∧ (Instr.t0cb 65535).wf = true := by decide

/-! ## Decoding: words written out from the formats of 30_encoding.md (V-E1 to V-E28) -/

theorem test_decode_pindir : decode 0x100B02000000 = .ok (.pindir 11 .inputWithPullup) := by decide

theorem test_decode_pinset : decode 0x111001000000 = .ok (.pinset 16 .high) := by decide

theorem test_decode_pinget : decode 0x121F00000000 = .ok (.pinget 31) := by decide

theorem test_decode_ppdir : decode 0x200307010000 = .ok (.ppdir 3 7 .output) := by decide

theorem test_decode_ppset : decode 0x210000000000 = .ok (.ppset 0 0 .low) := by decide

theorem test_decode_pptgl : decode 0x220307000000 = .ok (.pptgl 3 7) := by decide

theorem test_decode_ppget : decode 0x230007000000 = .ok (.ppget 0 7) := by decide

theorem test_decode_portdir : decode 0x2402F0000000 = .ok (.portdir 2 0xF0) := by decide

theorem test_decode_portset : decode 0x2502A5000000 = .ok (.portset 2 0xA5) := by decide

theorem test_decode_t0init_fastPwm :
    decode 0x30020202C800 = .ok (.t0init .fastPwm false 2 2 200 0) := by decide

theorem test_decode_t0init_ctc :
    decode 0x300503007C00 = .ok (.t0init .ctc true 3 0 0x7C 0) := by decide

theorem test_decode_t0init_stray :
    decode 0x3001FBFE4000 = .ok (.t0init .ctc false 0xFB 0xFE 0x40 0) := by decide

theorem test_decode_t0duty : decode 0x313200000000 = .ok (.t0duty 50) := by decide

theorem test_decode_t0cb : decode 0x320123000000 = .ok (.t0cb 0x0123) := by decide

theorem test_decode_unknown :
    decode 0x000000000000 = .error .unknownOpcode ∧ decode 0xFFFFFFFFFFFF = .error .unknownOpcode ∧
    decode 0x130000000000 = .error .unknownOpcode := by decide

theorem test_decode_sbz :
    decode 0x120501000000 = .error .nonzeroSbz ∧ decode 0x300A00000000 = .error .nonzeroSbz ∧
    decode 0x313200000001 = .error .nonzeroSbz ∧ decode 0x220000010000 = .error .nonzeroSbz := by decide

theorem test_decode_reserved_values :
    decode 0x100B03000000 = .error .reservedDir ∧ decode 0x102807000000 = .error .reservedDir ∧
    decode 0x200000030000 = .error .reservedDir ∧ decode 0x110502000000 = .error .reservedLevel ∧
    decode 0x210000020000 = .error .reservedLevel ∧
    decode 0x300300000000 = .error .reservedMode := by decide

/-- The encoder gives the words of V-E4, V-E12, V-E15. -/
theorem test_encode :
    encode (.ppdir 3 7 .output) = 0x200307010000 ∧
    encode (.t0init .normal true 5 3 0x99 0x10) = 0x300405039910 ∧
    encode (.t0cb 0x0123) = 0x320123000000 := by decide

/-- The texts of V-E1, V-E4, V-E10 spell the commands of their words. -/
theorem test_text :
    parseText .pindir [.num 11, .sym .INPU] = some (.pindir 11 .inputWithPullup) ∧
    parseText .ppdir [.sym .D, .num 7, .sym .OUT] = some (.ppdir 3 7 .output) ∧
    parseText .t0init [.sym .FASTPWM, .num 0, .num 2, .num 2, .num 200, .num 0]
      = some (.t0init .fastPwm false 2 2 200 0) := by decide

/-! ## The descriptor ROM (section 2.1) -/

theorem test_rom :
    rom Config.default 11 = ⟨0x36, 0x38, 0x37, 3⟩ ∧ rom Config.default 16 = ⟨0x33, 0x35, 0x34, 0⟩ ∧
    rom Config.default 31 = ⟨0x30, 0x32, 0x31, 7⟩ ∧ rom Config.default 0 = ⟨0x39, 0x3B, 0x3A, 0⟩ := by
  decide

/-! ## Commands, at most two tests each -/

/-- V-I3. -/
theorem test_pindir_pullup :
    regsAfter (.pindir 11 .inputWithPullup) (withRegs { zeros with dir := ⟨0, 0xFF, 0, 0⟩ })
      = some { zeros with dir := ⟨0, 0xF7, 0, 0⟩, out := ⟨0, 0x08, 0, 0⟩ } := by decide

/-- V-I2: Input leaves the pull-up alone. -/
theorem test_pindir_input :
    regsAfter (.pindir 31 .input)
        (withRegs { zeros with dir := ⟨0, 0, 0, 0xFF⟩, out := ⟨0, 0, 0, 0x80⟩ })
      = some { zeros with dir := ⟨0, 0, 0, 0x7F⟩, out := ⟨0, 0, 0, 0x80⟩ } := by decide

/-- V-I6. -/
theorem test_pinset_high :
    regsAfter (.pinset 23 .high) (withRegs zeros) = some { zeros with out := ⟨0, 0, 0x80, 0⟩ } := by decide

/-- V-I7. -/
theorem test_pinset_low :
    regsAfter (.pinset 7 .low) (withRegs { zeros with out := ⟨0xFF, 0, 0, 0⟩ })
      = some { zeros with out := ⟨0x7F, 0, 0, 0⟩ } := by decide

/-- V-I8, V-I13. -/
theorem test_pinget :
    respAfter (.pinget 31) (withRegs { zeros with inp := ⟨0, 0, 0, 0x80⟩ }) = some (some true) ∧
    respAfter (.pinget 11) (withRegs { zeros with inp := ⟨0, 0xF7, 0, 0⟩ }) = some (some false) := by
  decide

/-- V-I12: the sentinel. -/
theorem test_pinget_sentinel :
    respAfter (.pinget 200) (withRegs { zeros with inp := ⟨0xFF, 0xFF, 0xFF, 0xFF⟩ })
      = some (some false) := by decide

/-- V-P2. -/
theorem test_ppdir_pullup :
    regsAfter (.ppdir 0 4 .inputWithPullup) (withRegs { zeros with dir := ⟨0xFF, 0, 0, 0⟩ })
      = some { zeros with dir := ⟨0xEF, 0, 0, 0⟩, out := ⟨0x10, 0, 0, 0⟩ } := by decide

/-- V-P3, V-P4: nothing changes. -/
theorem test_ppdir_outOfRange :
    regsAfter (.ppdir 4 0 .output) (withRegs zeros) = some zeros ∧
    regsAfter (.ppdir 1 8 .output) (withRegs zeros) = some zeros := by decide

/-- V-P5. -/
theorem test_ppset_low :
    regsAfter (.ppset 0 0 .low) (withRegs { zeros with out := ⟨0xFF, 0, 0, 0⟩ })
      = some { zeros with out := ⟨0xFE, 0, 0, 0⟩ } := by decide

/-- V-P6: the pin is out of range. -/
theorem test_ppset_outOfRange :
    regsAfter (.ppset 0 8 .high) (withRegs { zeros with out := ⟨0xAA, 0, 0, 0⟩ })
      = some { zeros with out := ⟨0xAA, 0, 0, 0⟩ } := by decide

/-- V-P9. -/
theorem test_pptgl_clears :
    regsAfter (.pptgl 2 0) (withRegs { zeros with out := ⟨0, 0, 0xA5, 0⟩ })
      = some { zeros with out := ⟨0, 0, 0xA4, 0⟩ } := by decide

/-- V-P7. -/
theorem test_pptgl_sets :
    regsAfter (.pptgl 3 7) (withRegs zeros) = some { zeros with out := ⟨0, 0, 0, 0x80⟩ } := by decide

/-- V-P10, V-P11. -/
theorem test_ppget :
    respAfter (.ppget 0 7) (withRegs { zeros with inp := ⟨0x81, 0, 0, 0⟩ }) = some (some true) ∧
    respAfter (.ppget 0 1) (withRegs { zeros with inp := ⟨0x81, 0, 0, 0⟩ }) = some (some false) := by
  decide

/-- V-P12, V-P13: the sentinel. -/
theorem test_ppget_sentinel :
    respAfter (.ppget 4 0) (withRegs { zeros with inp := ⟨0xFF, 0xFF, 0xFF, 0xFF⟩ }) = some (some false) ∧
    respAfter (.ppget 0 8) (withRegs { zeros with inp := ⟨0xFF, 0xFF, 0xFF, 0xFF⟩ })
      = some (some false) := by decide

/-- V-P14. -/
theorem test_portdir :
    regsAfter (.portdir 2 0xF0) (withRegs { zeros with dir := ⟨0, 0, 0x12, 0⟩, out := ⟨0, 0, 0x77, 0⟩ })
      = some { zeros with dir := ⟨0, 0, 0xF0, 0⟩, out := ⟨0, 0, 0x77, 0⟩ } := by decide

/-- V-P16. -/
theorem test_portdir_outOfRange : regsAfter (.portdir 4 0xFF) (withRegs zeros) = some zeros := by decide

/-- V-P15. -/
theorem test_portset :
    regsAfter (.portset 2 0xA5) (withRegs { zeros with dir := ⟨0, 0, 0x12, 0⟩ })
      = some { zeros with dir := ⟨0, 0, 0x12, 0⟩, out := ⟨0, 0, 0xA5, 0⟩ } := by decide

/-- V-P17. -/
theorem test_portset_outOfRange :
    regsAfter (.portset 255 0x00) (withRegs { zeros with out := ⟨1, 2, 3, 4⟩ })
      = some { zeros with out := ⟨1, 2, 3, 4⟩ } := by decide

/-- The registers of P4's start. -/
def p4 : RegSpace := { zeros with tcnt := 0x22, tcmp := 0x11, timsk := 0xFC }

/-- P4, steps 0, 2, 3 and 4, from the states before them, at the default policies. -/
theorem test_t0init_modes :
    regsAfter (.t0init .normal true 5 3 0x99 0x10) (withRegs p4)
      = some { zeros with tctrl := 0x85, tcnt := 0x10, tcmp := 0x11, timsk := 0xFD } ∧
    regsAfter (.t0init .ctc false 0xFB 0xFE 0x40 0)
        (withRegs { zeros with tctrl := 0x85, tcnt := 0x10, tcmp := 0x11, timsk := 0xFD })
      = some { zeros with tctrl := 0x2B, tcnt := 0x00, tcmp := 0x40, timsk := 0xFD } ∧
    regsAfter (.t0init .normal false 1 0 0 0)
        (withRegs { zeros with tctrl := 0x2B, tcnt := 0x00, tcmp := 0x40, timsk := 0xFD })
      = some { zeros with tctrl := 0x81, tcnt := 0x00, tcmp := 0x40, timsk := 0xFC } ∧
    regsAfter (.t0init .fastPwm false 2 2 200 0)
        (withRegs { zeros with tctrl := 0x81, tcnt := 0x00, tcmp := 0x40, timsk := 0xFC })
      = some { zeros with tctrl := 0x6A, tcnt := 0x00, tcmp := 0xC8, timsk := 0xFC } := by decide

/-- The two policies: V-T3 and P4 step 2 under `P_FOC_KEEP`; V-T4 and V-T8 without `P_IE_ASSIGN`. -/
theorem test_t0init_policies :
    regsAfter (.t0init .ctc false 0xFB 0xFE 0x40 0)
        (under keeping { zeros with tctrl := 0x85, tcnt := 0x10, tcmp := 0x11, timsk := 0xFD })
      = some { zeros with tctrl := 0xAB, tcnt := 0x00, tcmp := 0x40, timsk := 0xFD } ∧
    regsAfter (.t0init .ctc false 0 0 0 0) (under setOnly { zeros with timsk := 0xFF })
      = some { zeros with tctrl := 0x08, timsk := 0xFF } ∧
    regsAfter (.t0init .ctc false 0 0 0 0) (withRegs { zeros with timsk := 0xFF })
      = some { zeros with tctrl := 0x08, timsk := 0xFD } ∧
    regsAfter (.t0init .normal false 1 0 0 0) (under setOnly { zeros with timsk := 0x03 })
      = some { zeros with tctrl := 0x81, timsk := 0x03 } := by decide

/-- The fields of a byte, P4 step 2: clock source 3, clear-on-match, CTC (R26 to R28). -/
theorem test_fields :
    csOf Config.default 0x2B = 3 ∧ compareOutputOf (comOf Config.default 0x2B) = .clearOnMatch ∧
    wgmOf .ctc = some (wgmHiOf Config.default 0x2B, wgmLoOf Config.default 0x2B) := by decide

/-- Rows of section 2.5: the encoder. -/
theorem test_encTctrl :
    encTctrl Config.default .normal 5 3 0xFF = 0x85 ∧ encTctrl Config.default .ctc 5 1 0xFF = 0x1D ∧
    encTctrl Config.default .fastPwm 0 3 0x00 = 0x78 ∧ encTctrl keeping .ctc 0 2 0x80 = 0xA8 ∧
    encTctrl keeping .fastPwm 5 3 0x80 = 0xFD ∧ encTctrl keeping .fastPwm 5 3 0x7F = 0x7D := by decide

/-- Section 2.5, masking. -/
theorem test_masks :
    maskClk 0xFA = 2 ∧ maskClk 0xFB = 3 ∧ maskClk 0x08 = 0 ∧ maskCom 0xFE = 2 ∧ maskCom 0x04 = 0 := by
  decide

/-- V-T9: accepted before any T0INIT, and `tstate` stays Uninitialized. -/
theorem test_t0duty :
    regsAfter (.t0duty 50) (withRegs zeros) = some { zeros with tcmp := 0x32 } ∧
    (result (exec (.t0duty 50) (withRegs zeros))).map State.tstate = some .uninitialized := by decide

/-- V-T12, V-T13. -/
theorem test_t0cb :
    (result (exec (.t0cb 0x0456) { State.reset with cb := some 0x0123 })).map State.cb
      = some (some 0x0456) ∧
    (result (exec (.t0cb 0) { State.reset with cb := some 0x0456 })).map State.cb = some none := by decide

/-- V-T14. -/
theorem test_t0cb_in_service :
    refusal (exec (.t0cb 0x0456) { State.reset with cb := some 0x0123, inService := true })
      = some .callbackInService := by decide

/-- R177 under other widths: the abstract handle is stored whole, at the top of its range too. -/
theorem test_t0cb_widths :
    (result (exec (.t0cb 0xFFFFFFFF) (under wideHandles zeros))).map State.cb = some (some 0xFFFFFFFF) ∧
    (result (exec (.t0cb 0xFF) (under narrowHandles zeros))).map State.cb = some (some 0xFF) := by decide

/-! ## Events -/

/-- A machine with both enables as given, a callback, and one event to come. -/
def eventState (timsk : Byte) (cb : Option Handle) (inService : Bool) (e : EnvStep) : State :=
  facing [.environment e] { withRegs { zeros with timsk := timsk } with cb := cb, inService := inService }

/-- What a step leaves of service and invocations. -/
def afterEvent (s : State) : Option (Bool × List Handle) :=
  (result (step s)).map fun t => (t.inService, t.env.invocations)

/-- V-X1, V-X2, V-X4. -/
theorem test_events_admitted :
    afterEvent (eventState 0x02 (some 0x0123) false .compareMatch) = some (true, [0x0123]) ∧
    afterEvent (eventState 0x02 none false .compareMatch) = some (false, []) ∧
    afterEvent (eventState 0x01 (some 0x0123) false .overflow) = some (true, [0x0123]) := by decide

/-- V-X3, V-X5, V-X7. -/
theorem test_events_not_admitted :
    afterEvent (eventState 0x02 (some 0x0123) false .overflow) = some (false, []) ∧
    afterEvent (eventState 0x03 (some 0x0123) true .compareMatch) = some (true, []) ∧
    afterEvent (eventState 0x03 (some 0x0123) true .overflow) = some (true, []) ∧
    afterEvent (eventState 0x03 (some 0x0123) false .callbackReturn) = some (false, []) := by decide

/-- V-X6. -/
theorem test_event_return :
    afterEvent (eventState 0x03 (some 0x0123) true .callbackReturn) = some (false, []) := by decide

/-! ## The step and the interface -/

/-- P1, ci 0: the word is decoded and performed from the registers of P1's start, and `ci` advances. -/
theorem test_step_runs_word :
    (result (step ((withRegs { zeros with dir := ⟨0, 0xFF, 0, 0⟩ }).withFetchWord 48 0x100B02000000))).map
        (fun t => (t.regs, t.env.ci, t.env.pending))
      = some ({ zeros with dir := ⟨0, 0xF7, 0, 0⟩, out := ⟨0, 0x08, 0, 0⟩ }, 1, []) := by decide

theorem test_step_refuses_reserved :
    refusal (step (State.reset.withFetchWord 48 0x130000000000))
      = some (.reservedWord .unknownOpcode) := by decide

/-- A registration presented with an abstract handle (R96) fills the slot and advances `ci`. -/
theorem test_step_registers :
    (result (step (facing [.register 0x12345] (under wideHandles zeros)))).map
        (fun t => (t.cb, t.env.ci, t.env.pending)) = some (some 0x12345, 1, []) := by decide

theorem test_decodeTableWord :
    decodeTableWord 48 0x320123000000 = some (.t0cb 0x0123) ∧ decodeTableWord 48 0 = none := by decide

/-! ## Witnesses: the hypotheses of every obligation are met together -/

/-- A machine in CTC mode whose callback is in service. -/
def busy : State :=
  { withRegs { zeros with tctrl := 0x0B, tcmp := 0x7C, timsk := 0x02 } with
    tstate := .ctc, cb := some 0x0123, inService := true }

/-- A machine in Normal mode. -/
def running : State :=
  { withRegs { zeros with tctrl := 0x85, timsk := 0x01 } with tstate := .normal, cb := some 0x0123 }

theorem busy_inv : busy.Inv :=
  { wfCfg := by decide, latchEmpty := rfl, slotNonzero := by decide
    slotWidth := fun _ h => by cases h; decide
    serviceHasCallback := fun _ => rfl
    wgmMatches := fun _ h => by cases h; decide
    normalFields := fun h => by cases h }

theorem running_inv : running.Inv :=
  { wfCfg := by decide, latchEmpty := rfl, slotNonzero := by decide
    slotWidth := fun _ h => by cases h; decide
    serviceHasCallback := fun h => by cases h
    wgmMatches := fun _ h => by cases h; decide
    normalFields := fun _ => by decide }

theorem witness_DecodeOfEncodeIsTheCommand :
    (Instr.pindir 255 .inputWithPullup).wf = true ∧ (Instr.pinset 0 .high).wf = true ∧
    (Instr.pinget 255).wf = true ∧ (Instr.ppdir 255 255 .output).wf = true ∧
    (Instr.portset 255 0xFF).wf = true ∧ (Instr.t0init .ctc true 0xFF 0xFF 0xFF 0xFF).wf = true ∧
    (Instr.t0cb 0xFFFF).wf = true := by decide

theorem witness_EncodeOfDecodeIsTheWord :
    decode 0x10FF02000000 = .ok (.pindir 255 .inputWithPullup) := by decide

theorem witness_OpcodeRowsAreExclusive :
    (⟨.pindir, 0xFF0000FFFFFF, 0x100000000000⟩ : OpRow) ∈ opcodeTable ∧
    (0x100B02000000 : CmdWord) &&& 0xFF0000FFFFFF = 0x100000000000 := by decide

theorem witness_ReservedWordsAreExactlyTheListed :
    (0x300300000000 : CmdWord) &&& 0xFFF800000000 = 0x300000000000 ∧
    (0x300300000000 : CmdWord).extractLsb' 32 2 = 3 ∧
    (0x10FF03000000 : CmdWord) &&& 0xFF0000FFFFFF = 0x100000000000 ∧
    3 ≤ ((0x10FF03000000 : CmdWord).extractLsb' 24 8).toNat ∧
    (0x21FFFF020000 : CmdWord) &&& 0xFF000000FFFF = 0x210000000000 ∧
    2 ≤ ((0x21FFFF020000 : CmdWord).extractLsb' 16 8).toNat := by decide

/-- A text in symbols, one in numbers with a port out of range, and the wf premise of the second clause. -/
theorem witness_TextOfCommandSpellsIt :
    parseText .ppset [.sym .C, .num 7, .sym .LOW] = some (.ppset 2 7 .low) ∧
    parseText .portset [.num 255, .num 255] = some (.portset 255 0xFF) ∧
    (Instr.ppset 2 7 .low).wf = true ∧ (Instr.ppset 2 7 .low).op = .ppset ∧
    (Instr.ppset 2 7 .low).spellings = [[.num 2, .sym .C], [.num 7], [.num 0, .sym .LOW]] ∧
    (Instr.portset 255 0xFF).wf = true := by decide

theorem witness_MemReadAnswersTheRegister :
    Config.default.wf = true ∧ ∀ r, Config.default.addr r ≠ 0x54 := by
  refine ⟨by decide, fun r => ?_⟩
  cases r with
  | dir p => cases p <;> decide
  | out p => cases p <;> decide
  | inp p => cases p <;> decide
  | tctrl => decide
  | tcnt => decide
  | tcmp => decide
  | timsk => decide

theorem witness_MemWriteReplacesTheRegister :
    State.reset.cfg.wf = true ∧ (∀ p, Reg.out .D ≠ .inp p) ∧ ∀ p, Reg.timsk ≠ .inp p :=
  ⟨by decide, fun _ h => (by cases h), fun _ h => (by cases h)⟩

theorem witness_RomFollowsThePairing :
    (0 : Fin 32).val = pinId .A 0 ∧ (31 : Fin 32).val = pinId .D 7 := by decide

theorem witness_RomAddressesAreDistinctRegisters : otherLayout.wf = true := by decide

theorem witness_NoStepChangesTheRom :
    (∃ t, step (State.reset.withFetchWord 48 0x100B02000000) = .next t) ∧
    (∃ t, memWrite State.reset 0x53 0xFF = .ok t) ∧
    (∃ v, memRead State.reset 0x53 = .ok v) ∧ Config.default.aIn = keeping.aIn ∧
    Config.default.aOut = keeping.aOut ∧ Config.default.aDir = keeping.aDir :=
  ⟨⟨_, rfl⟩, ⟨_, rfl⟩, ⟨_, rfl⟩, rfl, rfl, rfl⟩

/-- The one hypothesis of the statements on a command in range (PINDIR to PINGET, PPDIR to PORTSET,
WholePortEqualsEightPins, T0INIT's effects, T0dutyWritesTheCompareRegister, EveryCommandCompletes): a machine
with a well-formed configuration. -/
theorem witness_wellFormedMachine :
    State.reset.cfg.wf = true ∧ busy.cfg.wf = true ∧ (under keeping zeros).cfg.wf = true ∧
    (under setOnly zeros).cfg.wf = true ∧ (under otherLayout zeros).cfg.wf = true := by decide

theorem witness_outOfRange : 32 ≤ 32 ∧ 32 ≤ 255 ∧ (4 ≤ 4 ∨ 8 ≤ 0) ∧ (4 ≤ 0 ∨ 8 ≤ 8) := by decide

theorem witness_IndexedEqualsPortLevel :
    busy.cfg.wf = true ∧ busy.dlatch = none ∧
    indexedId (.pindir 31 .inputWithPullup) = some 31 ∧ indexedId (.pinset 0 .low) = some 0 ∧
    indexedId (.pinget 8) = some 8 ∧ 31 < 32 := by decide

theorem witness_IndexedFrame :
    indexedId (.pindir 31 .output) = some 31 ∧ 31 = pinId .D 7 ∧ indexedId (.pinset 0 .high) = some 0 ∧
    0 = pinId .A 0 ∧ indexedId (.pinget 32) = some 32 ∧ 32 ≤ 32 := by decide

theorem witness_PortLevelFrame :
    portLevel (.ppdir 3 7 .output) = some (3, some 7) ∧ 3 = Port.number .D ∧ 7 < 8 ∧
    portLevel (.portdir 0 0xFF) = some (0, none) ∧ 0 = Port.number .A ∧
    portLevel (.pptgl 4 0) = some (4, some 0) ∧ 4 ≤ 4 ∧
    portLevel (.ppset 3 8 .low) = some (3, some 8) ∧ 8 ≤ 8 ∧
    (Instr.ppget 0 7).op = .ppget := by decide

theorem witness_ReadsDependOnInputsOnly :
    State.reset.cfg.wf = true ∧ State.reset.cfg = busy.cfg ∧
    (∀ p, readReg State.reset (.inp p) = readReg busy (.inp p)) ∧
    (Instr.pinget 31).op = .pinget ∧ (Instr.ppget 4 8).op = .ppget :=
  ⟨by decide, rfl, fun _ => rfl, rfl, rfl⟩

theorem witness_StrayOperandBitsHaveNoEffect :
    (∀ k, k < 3 → (0xFA : Byte).getLsbD k = (0x02 : Byte).getLsbD k) ∧
    (∀ k, k < 2 → (0xFE : Byte).getLsbD k = (0x02 : Byte).getLsbD k) ∧
    T0Mode.ctc ≠ .normal ∧ (0xFA : Byte) ≠ 0x02 := by decide

theorem witness_EncoderForgetsTheOldContent :
    keeping.wf = true ∧ T0Mode.ctc ≠ .normal ∧ keeping.pFocKeep = true ∧
    (0xFF : Byte).getLsbD keeping.focB = (0x80 : Byte).getLsbD keeping.focB ∧
    Config.default.pFocKeep = false := by decide

theorem witness_InterruptEnableUpdate : 7 < 8 ∧ 0 ≠ 7 ∧ (0xFD : Byte).getLsbD 7 = true := by decide

theorem witness_T0initLaws :
    (under keeping zeros).cfg.wf = true ∧
    (under keeping zeros).cfg = (under keeping { zeros with tctrl := 0x7F }).cfg ∧
    (readReg (under keeping zeros) .tctrl).getLsbD 7
      = (readReg (under keeping { zeros with tctrl := 0x7F }) .tctrl).getLsbD 7 ∧
    (Instr.t0duty 50).op ≠ .t0init ∧ ∃ t, exec (.t0duty 50) State.reset = .next t :=
  ⟨by decide, rfl, by decide, by decide, ⟨_, rfl⟩⟩

/-- Each clause at the boundary of its range, for three widths. -/
theorem witness_T0cbFillsTheSlot :
    running.inService = false ∧ 0 < 2 ^ running.cfg.cbw ∧ 0xFFFF < 2 ^ running.cfg.cbw ∧
    2 ^ running.cfg.cbw ≤ 0x10000 ∧ 2 ^ narrowHandles.cbw ≤ 0x0123 ∧ 0xFFFFFFFF < 2 ^ wideHandles.cbw ∧
    busy.inService = true := by decide

theorem witness_TimerFrame :
    running.cfg.wf = true ∧ running.inService = false ∧ Reg.out .D ≠ .tctrl ∧ Reg.out .D ≠ .tcmp ∧
    7 ≠ running.cfg.toieB ∧ 7 ≠ running.cfg.ocieB := by decide

/-- Both sources, and the slot with and without a callback. -/
theorem witness_AdmittedEventInvokesTheCallback :
    (eventState 0x02 none false .compareMatch).env.pending = [.environment .compareMatch] ∧
    (eventState 0x02 none false .compareMatch).inService = false ∧
    (readReg (eventState 0x02 none false .compareMatch) .timsk).getLsbD Config.default.ocieB = true ∧
    (eventState 0x02 none false .compareMatch).cb = none ∧
    (eventState 0x01 (some 0x0123) false .overflow).env.pending = [.environment .overflow] ∧
    (readReg (eventState 0x01 (some 0x0123) false .overflow) .timsk).getLsbD Config.default.toieB = true ∧
    (eventState 0x01 (some 0x0123) false .overflow).cb = some 0x0123 := by decide

/-- A disabled event, an event in service and a return out of service. -/
theorem witness_EventNotAdmittedChangesNothing :
    (eventState 0x01 (some 0x0123) false .compareMatch).env.pending = [.environment .compareMatch] ∧
    (readReg (eventState 0x01 (some 0x0123) false .compareMatch) .timsk).getLsbD Config.default.ocieB
      = false ∧
    (readReg (eventState 0x02 (some 0x0123) false .overflow) .timsk).getLsbD Config.default.toieB
      = false ∧
    (eventState 0x03 (some 0x0123) true .overflow).inService = true ∧
    (eventState 0x03 (some 0x0123) false .callbackReturn).inService = false := by decide

theorem witness_CallbackReturnEndsService :
    (eventState 0x03 (some 0x0123) true .callbackReturn).env.pending = [.environment .callbackReturn] ∧
    (eventState 0x03 (some 0x0123) true .callbackReturn).inService = true := by decide

/-- A step that begins service, one that ends it and one that does neither. -/
theorem witness_OnlyEventsEnterAndLeaveService :
    (∃ t, step (eventState 0x02 (some 0x0123) false .compareMatch) = .next t ∧ t.inService = true) ∧
    (∃ t, step (eventState 0x02 (some 0x0123) true .callbackReturn) = .next t ∧ t.inService = false) ∧
    (∃ t, step (running.withFetchWord 48 0x220307000000) = .next t ∧ t.inService = false) :=
  ⟨⟨_, rfl, rfl⟩, ⟨_, rfl, rfl⟩, ⟨_, rfl, rfl⟩⟩

theorem witness_EnvironmentOverwritesOneRegister :
    (facing [.environment (.setInput .D 0xFF)] busy).env.pending = [.environment (.setInput .D 0xFF)] ∧
    (facing [.environment (.setCounter 0xFF)] busy).env.pending
      = [.environment (.setCounter 0xFF)] := by decide

theorem witness_StepRunsTheDecodedCommand :
    (busy.withFetchWord 48 0x220307000000).env.pending = [.command 0x220307000000] ∧
    decode 0x220307000000 = .ok (.pptgl 3 7) ∧
    (facing [.register 0x12345] (under wideHandles zeros)).env.pending = [.register 0x12345] := by decide

theorem witness_StepRefusesReservedWords :
    (busy.withFetchWord 48 0x130000000000).env.pending = [.command 0x130000000000] ∧
    decode 0x130000000000 = .error .unknownOpcode := by decide

theorem witness_NothingPresentedChangesNothing : busy.env.pending = [] := by decide

/-- Both cases of `EveryCommandCompletes` occur. -/
theorem witness_EveryCommandCompletes :
    (∃ t, exec (.pptgl 3 7) busy = .next t) ∧
    exec (.t0cb 0x0456) busy = .refused .callbackInService := ⟨⟨_, rfl⟩, rfl⟩

theorem witness_RegistersChangeOnlyByTheirWriters :
    busy.cfg.wf = true ∧ (∃ t, exec (.pptgl 3 7) busy = .next t) ∧
    mayWrite (Instr.pptgl 3 7).op (.dir .D) = false ∧ mayWrite (Instr.pptgl 3 7).op .timsk = false :=
  ⟨by decide, ⟨_, rfl⟩, rfl, rfl⟩

/-- A step that changes `tstate`, one that does not, and a mode already entered. -/
theorem witness_OnlyT0initChangesTheMode :
    running.cfg.wf = true ∧ running.tstate ≠ .uninitialized ∧
    (∃ t, step (running.withFetchWord 48 0x30020202C800) = .next t ∧ t.tstate = .fastPwm) ∧
    (∃ t, step (running.withFetchWord 48 0x313200000000) = .next t ∧ t.tstate = .normal) :=
  ⟨by decide, by decide, ⟨_, rfl, rfl⟩, ⟨_, rfl, rfl⟩⟩

theorem witness_ForeignTimskBitsNeverChange :
    running.cfg.wf = true ∧ (∃ t, step (running.withFetchWord 48 0x300500000000) = .next t) ∧ 7 < 8 ∧
    7 ≠ running.cfg.ocieB ∧ 7 ≠ running.cfg.toieB :=
  ⟨by decide, ⟨_, rfl⟩, by decide, by decide, by decide⟩

theorem witness_FastPwmAndSetOnlyKeepTheEnables :
    (under setOnly { zeros with timsk := 0x03 }).cfg.wf = true ∧
    (under setOnly { zeros with timsk := 0x03 }).cfg.pIeAssign = false ∧
    (∃ t, exec (.t0init .ctc false 0 0 0 0) (under setOnly { zeros with timsk := 0x03 }) = .next t) ∧
    (readReg (under setOnly { zeros with timsk := 0x03 }) .timsk).getLsbD 1 = true ∧
    (readReg (under setOnly { zeros with timsk := 0x03 }) .timsk).getLsbD 0 = true :=
  ⟨by decide, rfl, ⟨_, rfl⟩, rfl, rfl⟩

theorem witness_GpioIgnoresTheTimerHalf :
    State.reset.cfg.wf = true ∧ SamePorts State.reset busy ∧ indexedId (.pinset 31 .high) ≠ none ∧
    portLevel (.portset 3 0xFF) ≠ none :=
  ⟨by decide, ⟨rfl, fun _ => ⟨rfl, rfl, rfl⟩⟩, by decide, by decide⟩

theorem witness_InvariantHoldsAtReset : otherLayout.wf = true ∧ setOnly.wf = true := by decide

/-- A state in service and one in Normal mode meet the invariant, and each has a next state. -/
theorem witness_EveryStepKeepsTheInvariant :
    busy.Inv ∧ running.Inv ∧
    (∃ t, step (facing [.environment .callbackReturn] busy) = .next t) ∧
    (∃ t, step (running.withFetchWord 48 0x3001FBFE4000) = .next t) :=
  ⟨busy_inv, running_inv, ⟨_, rfl⟩, ⟨_, rfl⟩⟩

theorem witness_RunsNeverFault : busy.Inv ∧ ∃ t, Host.Core.run core 3 busy = .next t :=
  ⟨busy_inv, ⟨_, rfl⟩⟩

end Sys2Proof.Tests
end

/-! SUPPORT. The descriptor ROM: no step and no register access changes it or reaches it (R35). -/

namespace Sys2Proof.Machine

/-- No environment step changes the parameters (R43). -/
@[simp] theorem environmentStep_cfg (e : EnvStep) (s : State) : (environmentStep e s).cfg = s.cfg := by
  rcases environmentStep_cases e s with
    he | ⟨p, v, -, he⟩ | ⟨v, -, he⟩ | ⟨h, -, -, -, he⟩ | ⟨-, -, he⟩ <;> rw [he] <;> rfl

/-- No step changes the parameters (R43). -/
theorem step_cfg {s t : State} (h : step s = .next t) : t.cfg = s.cfg := by
  rcases step_cases h with ⟨-, rfl⟩ | ⟨x, rest, i, -, -, hexec⟩ | ⟨e, rest, -, rfl⟩
  · rfl
  · exact (exec_keeps hexec).cfg
  · exact environmentStep_cfg e _

/-- The register found at an address stands at that address (R60). -/
theorem addr_of_regAt {cfg : Config} {a : Nat} {r : Reg} (h : regAt cfg a = some r) : cfg.addr r = a := by
  simpa using List.find?_some h

/-- Everything a `MemRead` can answer: the content of the register at the address (R63). -/
theorem memRead_cases {s : State} {a : Nat} {v : Byte} (h : memRead s a = .ok v) :
    ∃ r, regAt s.cfg a = some r ∧ v = readReg s r := by
  unfold memRead at h
  split at h
  · rename_i r hr
    cases h
    exact ⟨r, hr, rfl⟩
  · cases h

/-- The ROM is a function of the port addresses alone (R35). -/
theorem rom_congr {cfg cfg' : Config} (hin : cfg.aIn = cfg'.aIn) (hout : cfg.aOut = cfg'.aOut)
    (hdir : cfg.aDir = cfg'.aDir) (id : Fin 32) : rom cfg id = rom cfg' id := by
  simp only [rom, hin, hout, hdir]

/-- Settles O11: steps and writes keep the parameters, of which the ROM is a function, and a read answers the
register it finds at the address. -/
theorem noStepChangesTheRom : Obligations.NoStepChangesTheRom := by
  refine ⟨fun s t hstep => ?_, fun s t a v hwrite id => ?_, fun s a v hread => ?_,
    fun cfg cfg' hin hout hdir id => rom_congr hin hout hdir id⟩
  · have hcfg := step_cfg hstep
    exact ⟨hcfg, fun id => by rw [hcfg]⟩
  · rw [(memWrite_keeps hwrite).cfg]
  · obtain ⟨r, hr, hv⟩ := memRead_cases hread
    exact ⟨r, addr_of_regAt hr, hv⟩

end Sys2Proof.Machine

/-! SUPPORT. PINGET reads one bit of an input register and writes no register (R124). -/

namespace Sys2Proof.Machine

/-- What fetching a descriptor, responding and discarding it leave: the response and an empty latch (R39). -/
theorem dropLatch_respond_romFetch (s : State) (id : Fin 32) (x : Option Bool) :
    dropLatch (respond (romFetch s id) x) = { s with resp := x, dlatch := none } := rfl

/-- Out of range PINGET answers the sentinel 0 (R121, R124). -/
theorem exec_pinget_outOfRange (s : State) {id : Nat} (h : 32 ≤ id) :
    exec (.pinget id) s = .next (respond s (some false)) := by
  simp only [exec, execPinget]
  exact indexed_outOfRange h _ _ s

/-- Settles O14: in range, by the equation of PINGET and of its latch; out of range, by its range check. -/
theorem pingetReadsTheInputBit : Obligations.PingetReadsTheInputBit := by
  refine ⟨fun s p b hwf => ?_, fun s id hid => exec_pinget_outOfRange s hid⟩
  refine ⟨_, exec_pinget_inRange hwf p b, ?_⟩
  rw [dropLatch_respond_romFetch]
  exact ⟨rfl, rfl⟩

end Sys2Proof.Machine

/-! SUPPORT. T0INIT reads its clock-source and compare-output operands through their masks alone (R171). -/

namespace Sys2Proof.Machine

/-- The masked clock source depends on the low three bits alone (R171). -/
theorem maskClk_congr {clk clk' : Byte} (h : ∀ k, k < 3 → clk.getLsbD k = clk'.getLsbD k) :
    maskClk clk = maskClk clk' := by
  apply BitVec.eq_of_getLsbD_eq
  intro k hk
  rw [getLsbD_maskClk clk hk, getLsbD_maskClk clk' hk, h k hk]

/-- The masked compare output depends on the low two bits alone (R171). -/
theorem maskCom_congr {com com' : Byte} (h : ∀ k, k < 2 → com.getLsbD k = com'.getLsbD k) :
    maskCom com = maskCom com' := by
  apply BitVec.eq_of_getLsbD_eq
  intro k hk
  rw [getLsbD_maskCom com hk, getLsbD_maskCom com' hk, h k hk]

/-- Operands with equal masks give T0INIT one outcome, in every state and under every configuration (R171). -/
theorem exec_t0init_congr {clk clk' com com' : Byte} (hclk : maskClk clk = maskClk clk')
    (hcom : maskCom com = maskCom com') (mode : T0Mode) (ie : Bool) (tick init : Byte) (s : State) :
    exec (.t0init mode ie clk com tick init) s = exec (.t0init mode ie clk' com' tick init) s := by
  simp only [exec, execT0init, hclk, hcom]

/-- Settles O31: stray bits are lost in the masks, through which alone T0INIT reads the two operands; the others
are read back from the states that T0INIT and T0DUTY leave. -/
theorem strayOperandBitsHaveNoEffect : Obligations.StrayOperandBitsHaveNoEffect := by
  refine ⟨fun s mode ie clk clk' com com' tick init hclk hcom => ?_,
    fun s mode ie clk com tick init value hwf => ?_⟩
  · exact exec_t0init_congr (maskClk_congr hclk) (maskCom_congr hcom) mode ie tick init s
  · exact ⟨_, _, exec_t0init hwf mode ie clk com tick init, exec_t0duty hwf value,
      initialised_tcnt mode ie clk com tick init s, initialised_tcmp mode ie clk com tick init s,
      by simp only [readReg_writeReg, if_pos]⟩

end Sys2Proof.Machine

/-! SUPPORT. The decoder and the encoder undo each other, and the rows and reserved words of the opcode table
(R97 to R101). -/

namespace Sys2Proof

/-! ### Decoding an encoded command -/

/-- The encoded word of a command spells the command's own row (R97). -/
theorem encode_spells_row (i : Instr) : Laws.RowMatch.Statement i := by
  cases i with
  | pindir id dir => exact Laws.RowMatch.pindir id dir
  | pinset id level => exact Laws.RowMatch.pinset id level
  | pinget id => exact Laws.RowMatch.pinget id
  | ppdir port pin dir => exact Laws.RowMatch.ppdir port pin dir
  | ppset port pin level => exact Laws.RowMatch.ppset port pin level
  | pptgl port pin => exact Laws.RowMatch.pptgl port pin
  | ppget port pin => exact Laws.RowMatch.ppget port pin
  | portdir port val => exact Laws.RowMatch.portdir port val
  | portset port val => exact Laws.RowMatch.portset port val
  | t0init mode ie clk com tick init => exact Laws.RowMatch.t0init mode ie clk com tick init
  | t0duty value => exact Laws.RowMatch.t0duty value
  | t0cb handle => exact Laws.RowMatch.t0cb handle

/-- The decoder reads the operands of a row that the word spells (R99). -/
theorem decode_of_spells {r : OpRow} {w : CmdWord} (hr : r ∈ opcodeTable) (hs : r.spells w = true) :
    decode w = operands r.op (positions w) := by
  have hrow : rowOf w = some r := rowOf_eq_some.mpr ⟨hr, hs⟩
  simp only [decode, hrow]

/-- The decoder reads an encoded command's operands from the positions the command fills. -/
theorem decode_encode_eq_operands (i : Instr) : decode (encode i) = operands i.op i.fill := by
  obtain ⟨r, hr, hop, hs⟩ := encode_spells_row i
  rw [decode_of_spells hr hs, hop, encode, positions_assemble]

/-- The positions a well-formed command fills hold its operands (R91 to R96, R98). -/
theorem operands_fill {i : Instr} (h : i.wf = true) : operands i.op i.fill = .ok i := by
  cases i <;>
    simp_all [Instr.wf, fitsByte, fitsHandle, Instr.op, Instr.fill, operands, Except.map, handle_append]

/-- Settles O1: the word spells the command's own row, and the row's operands are the command's. -/
theorem decodeOfEncodeIsTheCommand : Obligations.DecodeOfEncodeIsTheCommand := by
  intro i hwf
  rw [decode_encode_eq_operands, operands_fill hwf]

/-! ### Encoding a decoded command -/

/-- The positions that the format of a command does not use are zero, and so are the top bits of position `A`
of T0INIT (R91 to R96). -/
def SbzClear (op : Op) (p : Positions) : Prop :=
  match op with
  | .pindir | .pinset | .pptgl | .ppget | .portdir | .portset | .t0cb => p.c = 0 ∧ p.d = 0 ∧ p.e = 0
  | .pinget | .t0duty => p.b = 0 ∧ p.c = 0 ∧ p.d = 0 ∧ p.e = 0
  | .ppdir | .ppset => p.d = 0 ∧ p.e = 0
  | .t0init => p.a &&& 248#8 = 0#8

/-- A word that spells a row's command has zero in the row's should-be-zero bits (R97). -/
theorem sbzClear_of_spells {r : OpRow} (hr : r ∈ opcodeTable) {w : CmdWord} (hs : r.spells w = true) :
    SbzClear r.op (positions w) := by
  have hmasked := (spells_iff r w).mp hs
  have keep (x : Byte) : x &&& 255#8 = x := BitVec.and_allOnes
  clear hs
  revert hmasked
  simp only [opcodeTable, List.mem_cons, List.not_mem_nil, or_false] at hr
  generalize positions w = p
  rcases hr with rfl | rfl | rfl | rfl | rfl | rfl | rfl | rfl | rfl | rfl | rfl | rfl <;>
    simp +contextual [positions, SbzClear, keep]

/-- Mapping over a result succeeds only on a success. -/
theorem except_map_eq_ok {ε α β : Type} {f : α → β} {x : Except ε α} {y : β} :
    x.map f = .ok y ↔ ∃ a, x = .ok a ∧ f a = y := by
  cases x <;> simp [Except.map]

/-- Mapping over a result fails just as the result does. -/
theorem except_map_eq_error {ε α β : Type} {f : α → β} {x : Except ε α} {e : ε} :
    x.map f = .error e ↔ x = .error e := by
  cases x <;> simp [Except.map]

@[simp] theorem fitsByte_toNat (b : Byte) : fitsByte b.toNat = true := by
  simpa [fitsByte] using b.isLt

/-- The operands of a row are a well-formed command of that row (R91 to R96). -/
theorem operands_wf {op : Op} {p : Positions} {i : Instr} (h : operands op p = .ok i) :
    i.wf = true ∧ i.op = op := by
  cases op <;> simp only [operands, except_map_eq_ok, Except.ok.injEq] at h
  case pindir | pinset | ppdir | ppset | t0init =>
    obtain ⟨x, -, rfl⟩ := h
    simp [Instr.wf, Instr.op]
  case t0cb =>
    subst h
    simpa [Instr.wf, Instr.op, fitsHandle] using (p.a ++ p.b : BitVec 16).isLt
  all_goals
    subst h
    simp [Instr.wf, Instr.op]

/-- A command that the operands of a word give fills just the positions it was read from (R91 to R96, R98). -/
theorem fill_of_operands {op : Op} {p : Positions} {i : Instr} (hop : p.op = op.opcode)
    (hz : SbzClear op p) (h : operands op p = .ok i) : i.fill = p := by
  obtain ⟨o, a, b, c, d, e⟩ := p
  cases op <;> simp only [operands, except_map_eq_ok, Except.ok.injEq, SbzClear] at h hz hop
  case pindir | ppdir =>
    obtain ⟨dir, hdir, rfl⟩ := h
    simp [Instr.fill, Instr.op, hop, hz, directionOf_ok hdir]
  case pinset | ppset =>
    obtain ⟨level, hlevel, rfl⟩ := h
    simp [Instr.fill, Instr.op, hop, hz, levelOf_ok hlevel]
  case t0init =>
    obtain ⟨mode, hmode, rfl⟩ := h
    simp [Instr.fill, Instr.op, hop, modeByte_of_sbz hz (modeOf_ok hmode)]
  case t0cb =>
    subst h
    simp [Instr.fill, Instr.op, hop, hz, handle_high, handle_low]
  all_goals
    subst h
    simp [Instr.fill, Instr.op, hop, hz]

/-- Everything the decoder can accept: the operands of a row the word spells (R99). -/
theorem decode_ok {w : CmdWord} {i : Instr} (h : decode w = .ok i) :
    ∃ r ∈ opcodeTable, r.spells w = true ∧ operands r.op (positions w) = .ok i := by
  unfold decode at h
  split at h
  case h_1 r hrow =>
    obtain ⟨hr, hs⟩ := rowOf_eq_some.mp hrow
    exact ⟨r, hr, hs, h⟩
  case h_2 => cases h

/-- Settles O2: the command's operands fill the positions they were read from, so its word is the word read. -/
theorem encodeOfDecodeIsTheWord : Obligations.EncodeOfDecodeIsTheWord := by
  intro w i h
  obtain ⟨r, hr, hs, hi⟩ := decode_ok h
  refine ⟨(operands_wf hi).1, ?_⟩
  rw [encode, fill_of_operands (opcode_of_spells hr hs) (sbzClear_of_spells hr hs) hi, assemble_positions]

/-! ### Reserved words -/

/-- The known opcodes are those of the rows (R101 (a)). -/
theorem knownOpcode_iff {w : CmdWord} :
    knownOpcode w = true ↔ ∃ r ∈ opcodeTable, r.op.opcode = (positions w).op := by
  simp only [knownOpcode, List.any_eq_true, beq_iff_eq]
  simp only [eq_comm]

/-- A word of no row is reserved by its opcode or its should-be-zero bits (R101 (a), (b)). -/
theorem decode_of_no_row {w : CmdWord} (h : rowOf w = none) :
    decode w = .error (if knownOpcode w then .nonzeroSbz else .unknownOpcode) := by
  simp only [decode, h]

/-- A direction operand is reserved from 3 on (R98). -/
theorem directionOf_error_iff {b : Byte} {why : Reserved} :
    directionOf b = .error why ↔ why = .reservedDir ∧ 3 ≤ b.toNat := by
  unfold directionOf
  split_ifs with h0 h1 h2
  · simp [h0]
  · simp [h1]
  · simp [h2]
  · have : 3 ≤ b.toNat := by bv_omega
    simp [this, eq_comm]

/-- A level operand is reserved from 2 on (R98). -/
theorem levelOf_error_iff {b : Byte} {why : Reserved} :
    levelOf b = .error why ↔ why = .reservedLevel ∧ 2 ≤ b.toNat := by
  unfold levelOf
  split_ifs with h0 h1
  · simp [h0]
  · simp [h1]
  · have : 2 ≤ b.toNat := by bv_omega
    simp [this, eq_comm]

/-- The one reserved mode operand is 3 (R98). -/
theorem modeOf_error_iff {b : BitVec 2} {why : Reserved} :
    modeOf b = .error why ↔ why = .reservedMode ∧ b = 3 := by
  unfold modeOf
  split_ifs with h0 h1 h2
  · simp [h0]
  · simp [h1]
  · simp [h2]
  · have : b = 3 := by bv_omega
    simp [this, eq_comm]

/-- The reserved operands, each with its reason and its rows (R101 (c) to (e)). -/
theorem operands_error_iff {op : Op} {p : Positions} {why : Reserved} :
    operands op p = .error why ↔
      (why = .reservedMode ∧ op = .t0init ∧ p.a.extractLsb' 0 2 = 3) ∨
      (why = .reservedDir ∧ ((op = .pindir ∧ 3 ≤ p.b.toNat) ∨ (op = .ppdir ∧ 3 ≤ p.c.toNat))) ∨
      (why = .reservedLevel ∧ ((op = .pinset ∧ 2 ≤ p.b.toNat) ∨ (op = .ppset ∧ 2 ≤ p.c.toNat))) := by
  cases op <;>
    simp [operands, except_map_eq_error, directionOf_error_iff, levelOf_error_iff, modeOf_error_iff]

/-- Everything that makes a word reserved: it spells no row, or it spells one with a reserved operand (R99,
R101). -/
theorem decode_error_iff {w : CmdWord} {why : Reserved} :
    decode w = .error why ↔
      (rowOf w = none ∧ why = if knownOpcode w then .nonzeroSbz else .unknownOpcode) ∨
      ∃ r ∈ opcodeTable, r.spells w = true ∧ operands r.op (positions w) = .error why := by
  cases hrow : rowOf w with
  | none =>
    have hno : ¬ ∃ r ∈ opcodeTable, r.spells w = true ∧ operands r.op (positions w) = .error why :=
      fun ⟨r, hr, hs, _⟩ => by simp [rowOf_eq_none.mp hrow r hr] at hs
    rw [decode_of_no_row hrow, or_iff_left hno]
    simp only [Except.error.injEq, true_and, eq_comm]
  | some r =>
    obtain ⟨hr, hs⟩ := rowOf_eq_some.mp hrow
    simp only [reduceCtorEq, false_and, false_or, decode_of_spells hr hs]
    refine ⟨fun h => ⟨r, hr, hs, h⟩, fun ⟨q, hq, hqs, h⟩ => ?_⟩
    rwa [row_of_opcode hr hq ((opcode_of_spells hr hs).symm.trans (opcode_of_spells hq hqs))]

/-- A word of an unknown opcode spells no row (R101 (a)). -/
theorem rowOf_of_unknown {w : CmdWord} (h : knownOpcode w = false) : rowOf w = none := by
  refine rowOf_eq_none.mpr fun r hr => ?_
  by_contra hs
  have hop := opcode_of_spells hr (by simpa using hs)
  rw [knownOpcode_iff.mpr ⟨r, hr, hop.symm⟩] at h
  cases h

/-- R101 (a): a word is reserved by its opcode exactly if that is not one of the twelve. -/
theorem decode_unknownOpcode_iff {w : CmdWord} :
    decode w = .error .unknownOpcode ↔ knownOpcode w = false := by
  rw [decode_error_iff]
  constructor
  · rintro (⟨-, h⟩ | ⟨r, -, -, h⟩)
    · by_contra hk
      simp [hk] at h
    · simp [operands_error_iff] at h
  · intro h
    exact .inl ⟨rowOf_of_unknown h, by simp [h]⟩

/-- R101 (b): a word is reserved by a should-be-zero bit exactly if it carries a row's opcode and does not spell
the row. -/
theorem decode_nonzeroSbz_iff {w : CmdWord} :
    decode w = .error .nonzeroSbz ↔
      ∃ r ∈ opcodeTable, r.op.opcode = (positions w).op ∧ r.spells w = false := by
  rw [decode_error_iff]
  constructor
  · rintro (⟨hrow, h⟩ | ⟨r, -, -, h⟩)
    · have hk : knownOpcode w = true := by
        by_contra hk
        simp [hk] at h
      obtain ⟨r, hr, hop⟩ := knownOpcode_iff.mp hk
      exact ⟨r, hr, hop, rowOf_eq_none.mp hrow r hr⟩
    · simp [operands_error_iff] at h
  · rintro ⟨r, hr, hop, hs⟩
    refine .inl ⟨rowOf_eq_none.mpr fun q hq => ?_, by simp [knownOpcode_iff.mpr ⟨r, hr, hop⟩]⟩
    by_contra hqs
    have hqs : q.spells w = true := by simpa using hqs
    rw [row_of_opcode hr hq (hop.trans (opcode_of_spells hq hqs)), hqs] at hs
    cases hs

/-- R101 (c) to (e): a word is reserved by an operand exactly if it spells a row and the row's operand is
reserved. -/
theorem decode_operand_error_iff {w : CmdWord} {why : Reserved}
    (hwhy : why ≠ .unknownOpcode ∧ why ≠ .nonzeroSbz) :
    decode w = .error why ↔
      ∃ r ∈ opcodeTable, w &&& r.mask = r.value ∧ operands r.op (positions w) = .error why := by
  rw [decode_error_iff]
  simp only [OpRow.spells, beq_iff_eq]
  refine or_iff_right fun ⟨_, h⟩ => ?_
  split at h
  · exact hwhy.2 h
  · exact hwhy.1 h

/-- The mode bits of position `A` are bits 33:32 of the word (R94). -/
theorem positions_mode (w : CmdWord) : (positions w).a.extractLsb' 0 2 = w.extractLsb' 32 2 := by
  apply BitVec.eq_of_getLsbD_eq
  intro k hk
  have hk8 : k < 8 := by omega
  simp [positions, hk, hk8]

/-- Settles O3: cases (a) and (b) by the rows a word can spell, cases (c) to (e) by the operands of its row. -/
theorem reservedWordsAreExactlyTheListed : Obligations.ReservedWordsAreExactlyTheListed := by
  refine ⟨fun w => ?_, by decide, by decide, fun w => ?_, fun w => ?_, fun w => ?_, fun w => ?_, by decide⟩
  · rw [decode_unknownOpcode_iff]
    simp [knownOpcode, opcodeTable, Op.opcode, positions]
  · rw [decode_nonzeroSbz_iff]
    simp [OpRow.spells, positions]
  · rw [decode_operand_error_iff (by decide)]
    simp [operands_error_iff, opcodeTable, positions_mode]
  · rw [decode_operand_error_iff (by decide)]
    simp [operands_error_iff, opcodeTable, positions]
  · rw [decode_operand_error_iff (by decide)]
    simp [operands_error_iff, opcodeTable, positions]

/-- Settles O4: a word that spells two rows carries both opcodes, and no two rows share one. -/
theorem opcodeRowsAreExclusive : Obligations.OpcodeRowsAreExclusive := by
  intro w r q hr hq hwr hwq
  have hopr : (positions w).op = r.op.opcode := opcode_of_spells hr (by simpa [OpRow.spells] using hwr)
  have hopq : (positions w).op = q.op.opcode := opcode_of_spells hq (by simpa [OpRow.spells] using hwq)
  exact ⟨row_of_opcode hr hq (hopr.symm.trans hopq), hopr⟩

/-- Settles O5: one word of each row, decoded. -/
theorem sampleWordsDecode : Obligations.SampleWordsDecode := by
  unfold Obligations.SampleWordsDecode
  decide

/-! ### The textual form

A text operand is read as a value exactly if it is one of the value's spellings (R105). -/

/-- A letter spells the port number it is listed with (R105). -/
theorem sym_mem_portSpellings (x : Symbol) (port : Nat) : .sym x ∈ portSpellings port ↔
    (port, x) ∈ [(0, Symbol.A), (1, .B), (2, .C), (3, .D)] := by
  rw [portSpellings, List.mem_cons, List.mem_map]
  simp only [List.mem_filter, beq_iff_eq, TextOperand.sym.injEq, reduceCtorEq, false_or]
  constructor
  · rintro ⟨⟨n, y⟩, ⟨h, rfl⟩, rfl⟩
    exact h
  · exact fun h => ⟨_, ⟨h, rfl⟩, rfl⟩

section
variable (a : TextOperand)

theorem textDirection_iff (dir : Direction) : textDirection a = some dir ↔ a ∈ dir.spellings := by
  unfold textDirection
  split <;> cases dir <;> simp_all [Direction.spellings, Direction.code, Direction.symbol]

theorem textLevel_iff (level : Level) : textLevel a = some level ↔ a ∈ level.spellings := by
  unfold textLevel
  split <;> cases level <;> simp_all [Level.spellings, Level.code, Level.symbol]

theorem textMode_iff (mode : T0Mode) : textMode a = some mode ↔ a ∈ mode.spellings := by
  unfold textMode
  split <;> cases mode <;> simp_all [T0Mode.spellings, T0Mode.code, T0Mode.symbol]

theorem textPort_iff (port : Nat) : textPort a = some port ↔ a ∈ portSpellings port := by
  cases a with
  | num n => simp [textPort, portSpellings]
  | sym x =>
    rw [sym_mem_portSpellings]
    cases x <;> simp [textPort, eq_comm]

theorem textNumber_iff (v : Byte) : textNumber 8 a = some v ↔ a = .num v.toNat := by
  cases a with
  | sym x => simp [textNumber]
  | num n =>
    simp only [textNumber, Option.ite_none_right_eq_some, Option.some.injEq, TextOperand.num.injEq]
    constructor
    · rintro ⟨hn, rfl⟩
      simpa using (Nat.mod_eq_of_lt hn).symm
    · rintro rfl
      exact ⟨v.isLt, BitVec.ofNat_toNat ..⟩

theorem textIndex_iff (n : Nat) : textIndex a = some n ↔ a = .num n := by
  cases a <;> simp [textIndex]

theorem textFlag_iff (b : Bool) : textFlag a = some b ↔ a = .num b.toNat := by
  unfold textFlag
  split <;> cases b <;> simp_all
end

/-- A text spells only commands of its mnemonic, each operand by one of the spellings (R105). -/
theorem parseOperands_sound {op : Op} {args : List TextOperand} {i : Instr}
    (h : parseOperands op args = some i) :
    i.op = op ∧ List.Forall₂ (fun a choices => a ∈ choices) args i.spellings := by
  unfold parseOperands at h
  split at h <;>
    simp only [bind, pure, Option.bind_eq_some_iff, Option.some.injEq, textDirection_iff, textLevel_iff,
      textMode_iff, textPort_iff, textNumber_iff, textIndex_iff, textFlag_iff, reduceCtorEq] at h
  case h_3 | h_11 | h_12 =>
    obtain ⟨x, hx, rfl⟩ := h
    simp [Instr.op, Instr.spellings, hx]
  case h_1 | h_2 | h_6 | h_7 | h_8 | h_9 =>
    obtain ⟨x, hx, y, hy, rfl⟩ := h
    simp [Instr.op, Instr.spellings, hx, hy]
  case h_4 | h_5 =>
    obtain ⟨x, hx, y, hy, z, hz, rfl⟩ := h
    simp [Instr.op, Instr.spellings, hx, hy, hz]
  case h_10 =>
    obtain ⟨mode, hmode, ie, hie, clk, hclk, com, hcom, tick, htick, init, hinit, rfl⟩ := h
    simp [Instr.op, Instr.spellings, hmode, hie, hclk, hcom, htick, hinit]

/-- Spellings of a command's operands, under its mnemonic, spell the command (R105). -/
theorem parseOperands_complete {args : List TextOperand} {i : Instr}
    (h : List.Forall₂ (fun a choices => a ∈ choices) args i.spellings) :
    parseOperands i.op args = some i := by
  cases i <;>
    simp only [Instr.spellings, List.forall₂_cons_right_iff, List.forall₂_nil_right_iff,
      List.mem_singleton] at h <;>
    simp only [Instr.op]
  case pinget | t0duty | t0cb =>
    obtain ⟨x, _, hx, rfl, rfl⟩ := h
    simp [parseOperands, Option.bind_eq_some_iff, textNumber_iff, textIndex_iff, hx]
  case pindir | pinset | pptgl | ppget | portdir | portset =>
    obtain ⟨x, _, hx, ⟨y, _, hy, rfl, rfl⟩, rfl⟩ := h
    simp [parseOperands, Option.bind_eq_some_iff, textDirection_iff, textLevel_iff, textPort_iff,
      textNumber_iff, textIndex_iff, hx, hy]
  case ppdir | ppset =>
    obtain ⟨x, _, hx, ⟨y, _, hy, ⟨z, _, hz, rfl, rfl⟩, rfl⟩, rfl⟩ := h
    simp [parseOperands, Option.bind_eq_some_iff, textDirection_iff, textLevel_iff, textPort_iff,
      textIndex_iff, hx, hy, hz]
  case t0init =>
    obtain ⟨m, _, hm, ⟨f, _, hf, ⟨k, _, hk, ⟨c, _, hc, ⟨t, _, ht, ⟨n, _, hn, rfl, rfl⟩, rfl⟩, rfl⟩, rfl⟩,
      rfl⟩, rfl⟩ := h
    simp [parseOperands, Option.bind_eq_some_iff, textMode_iff, textFlag_iff, textNumber_iff, hm, hf, hk, hc,
      ht, hn]

/-- A text spells a command exactly if the command is well formed, of the text's mnemonic, and spelled operand
by operand (R105). -/
theorem parseText_iff {op : Op} {args : List TextOperand} {i : Instr} :
    parseText op args = some i ↔
      i.wf = true ∧ i.op = op ∧ List.Forall₂ (fun a choices => a ∈ choices) args i.spellings := by
  rw [parseText, Option.filter_eq_some_iff, and_comm]
  refine and_congr_right fun _ => ⟨parseOperands_sound, ?_⟩
  rintro ⟨rfl, h⟩
  exact parseOperands_complete h

/-- The text in numbers spells each operand by its number (R105). -/
theorem textOperands_spellings (i : Instr) :
    List.Forall₂ (fun a choices => a ∈ choices) i.textOperands i.spellings := by
  cases i <;>
    simp [Instr.textOperands, Instr.spellings, portSpellings, Direction.spellings, Level.spellings,
      T0Mode.spellings]

/-- Settles O6: parsing is sound and complete for the spellings, and the numbers are among them. -/
theorem textOfCommandSpellsIt : Obligations.TextOfCommandSpellsIt :=
  ⟨fun _ _ _ => parseText_iff, fun i hwf => parseText_iff.mpr ⟨hwf, rfl, textOperands_spellings i⟩⟩

end Sys2Proof

/-! SUPPORT. The register space by address and the descriptor ROM (R34, R44, R63 to R65). -/

namespace Sys2Proof.Machine

/-- Writing a register's own content changes nothing. -/
theorem writeReg_self {s : State} {r : Reg} {v : Byte} (h : readReg s r = v) : writeReg s r v = s := by
  have hregs : regWrite s.regs r v = s.regs := by
    refine regSpace_ext fun q => ?_
    rw [regRead_regWrite]
    split
    case isTrue hq => rw [hq, ← h, readReg]
    case isFalse => rfl
  rw [writeReg, hregs]

/-- The later of two writes of one register stands. -/
theorem writeReg_writeReg (s : State) (r : Reg) (v w : Byte) :
    writeReg (writeReg s r v) r w = writeReg s r w := by
  have hregs : regWrite (regWrite s.regs r v) r w = regWrite s.regs r w := by
    refine regSpace_ext fun q => ?_
    simp only [regRead_regWrite]
    split <;> rfl
  rw [writeReg, writeReg_regs, hregs]
  rfl

/-- Settles O7: a register stands at its own address, and none at any other. -/
theorem memReadAnswersTheRegister : Obligations.MemReadAnswersTheRegister := by
  refine ⟨fun s r hwf => memRead_addr hwf r, fun s a v h => ?_⟩
  simp only [memRead, memWrite, regAt_none h, and_self]

/-- Settles O8: the write replaces the register at its address, which every read finds again by address. -/
theorem memWriteReplacesTheRegister : Obligations.MemWriteReplacesTheRegister := by
  intro s r v hwf hr
  have hinput : isInput r = false := by cases r <;> simp_all [isInput]
  have hread (q : Reg) : memRead (writeReg s r v) (s.cfg.addr q) = .ok (readReg (writeReg s r v) q) :=
    memRead_addr (s := writeReg s r v) hwf q
  refine ⟨writeReg s r v, memWrite_addr hwf hinput v, ?_, fun q hq => ?_, rfl⟩
  · rw [hread, readReg_writeReg, if_pos rfl]
  · rw [hread, readReg_writeReg, if_neg hq, memRead_addr hwf q]

/-- Settles O9: the port and the bit of an identifier are its quotient and remainder by 8. -/
theorem romFollowsThePairing : Obligations.RomFollowsThePairing := by
  intro cfg id p b hid
  rw [rom, portOfId_eq hid, bitOfId_eq hid]

/-- Settles O10: the three addresses are those of three registers, and well-formed addresses are distinct. -/
theorem romAddressesAreDistinctRegisters : Obligations.RomAddressesAreDistinctRegisters := by
  intro cfg id hwf
  have hne {r q : Reg} (h : r ≠ q) : cfg.addr r ≠ cfg.addr q := fun e => h (addr_injective hwf e)
  simp only [rom_inp, rom_out, rom_dir]
  exact ⟨hne (by simp), hne (by simp), hne (by simp), ⟨_, regAt_addr hwf _⟩, ⟨_, regAt_addr hwf _⟩,
    ⟨_, regAt_addr hwf _⟩, addr_lt hwf _, addr_lt hwf _, addr_lt hwf _⟩

end Sys2Proof.Machine

/-! SUPPORT. What a GPIO command does, as one equation for both families: in range it replaces the direction and
the output register of its port and answers, out of range it only answers (R121 to R126, R141 to R149). -/

namespace Sys2Proof.Machine

/-! ### The effect of a GPIO command on its port -/

/-- The direction register after the direction of a mask's pins is set (R122, R142). -/
def dirBits (dir : Direction) (m v : Byte) : Byte :=
  match dir with
  | .input => clearBits m v
  | .output => setBits m v
  | .inputWithPullup => clearBits m v

/-- The output register after the direction of a mask's pins is set: the pull-up bits (R122, R142). -/
def pullupBits (dir : Direction) (m v : Byte) : Byte :=
  match dir with
  | .input => v
  | .output => v
  | .inputWithPullup => setBits m v

/-- The direction register of its port after a GPIO command in range. -/
def newDir (i : Instr) (v : Byte) : Byte :=
  match i with
  | .pindir id dir => dirBits dir (bit (id % 8)) v
  | .ppdir _ pin dir => dirBits dir (bit pin) v
  | .portdir _ val => val
  | _ => v

/-- The output register of its port after a GPIO command in range. -/
def newOut (i : Instr) (v : Byte) : Byte :=
  match i with
  | .pindir id dir => pullupBits dir (bit (id % 8)) v
  | .pinset id level => levelBits level (bit (id % 8)) v
  | .ppdir _ pin dir => pullupBits dir (bit pin) v
  | .ppset _ pin level => levelBits level (bit pin) v
  | .pptgl _ pin => toggleBits (bit pin) v
  | .portset _ val => val
  | _ => v

/-- The response of a GPIO command in range, from the input register of its port. -/
def answer (i : Instr) (v : Byte) : Option Bool :=
  match i with
  | .pinget id => some (v.getLsbD (id % 8))
  | .ppget _ pin => some (v.getLsbD pin)
  | _ => none

/-- The response of a GPIO command out of range: a read answers the sentinel 0 (R124, R145). -/
def sentinel (i : Instr) : Option Bool :=
  match i with
  | .pinget _ => some false
  | .ppget _ _ => some false
  | _ => none

/-- The state a GPIO command leaves when it is in range and on port `p`. -/
def portEffect (i : Instr) (p : Port) (s : State) : State :=
  respond (writeReg (writeReg s (.dir p) (newDir i (readReg s (.dir p)))) (.out p)
    (newOut i (readReg s (.out p)))) (answer i (readReg s (.inp p)))

section
variable (i : Instr) (p : Port) (s : State)

@[simp] theorem portEffect_cfg : (portEffect i p s).cfg = s.cfg := rfl
@[simp] theorem portEffect_tstate : (portEffect i p s).tstate = s.tstate := rfl
@[simp] theorem portEffect_cb : (portEffect i p s).cb = s.cb := rfl
@[simp] theorem portEffect_inService : (portEffect i p s).inService = s.inService := rfl
@[simp] theorem portEffect_dlatch : (portEffect i p s).dlatch = s.dlatch := rfl
@[simp] theorem portEffect_env : (portEffect i p s).env = s.env := rfl

@[simp] theorem portEffect_resp : (portEffect i p s).resp = answer i (readReg s (.inp p)) := rfl

theorem portEffect_other {r : Reg} (hd : r ≠ .dir p) (ho : r ≠ .out p) :
    readReg (portEffect i p s) r = readReg s r := by
  simp [portEffect, hd, ho]

@[simp] theorem portEffect_dir : readReg (portEffect i p s) (.dir p) = newDir i (readReg s (.dir p)) := by
  simp [portEffect]

@[simp] theorem portEffect_out : readReg (portEffect i p s) (.out p) = newOut i (readReg s (.out p)) := by
  simp [portEffect]

/-- The effect of a command that keeps the direction register. -/
theorem portEffect_eq_writeOut (h : newDir i (readReg s (.dir p)) = readReg s (.dir p)) :
    portEffect i p s = writeReg (respond s (answer i (readReg s (.inp p)))) (.out p)
      (newOut i (readReg s (.out p))) := by
  rw [portEffect, writeReg_self h.symm]
  rfl

/-- The effect of a command that keeps the output register. -/
theorem portEffect_eq_writeDir (h : newOut i (readReg s (.out p)) = readReg s (.out p)) :
    portEffect i p s = writeReg (respond s (answer i (readReg s (.inp p)))) (.dir p)
      (newDir i (readReg s (.dir p))) := by
  rw [portEffect, writeReg_self (by simp [h])]
  rfl

/-- The effect of a command that keeps both registers is its answer. -/
theorem portEffect_eq_respond (hd : newDir i (readReg s (.dir p)) = readReg s (.dir p))
    (ho : newOut i (readReg s (.out p)) = readReg s (.out p)) :
    portEffect i p s = respond s (answer i (readReg s (.inp p))) := by
  rw [portEffect_eq_writeOut _ _ _ hd, writeReg_self (by simp [ho])]

end

/-- A direction-set is the effect of PPDIR (R142). -/
theorem directed_eq_portEffect (dir : Direction) (p : Port) (b : Fin 8) (s : State) :
    directed dir p (bit b) (respond s none) = portEffect (.ppdir p.number b dir) p s := by
  cases dir with
  | input => exact (portEffect_eq_writeDir (.ppdir p.number b .input) p s rfl).symm
  | output => exact (portEffect_eq_writeDir (.ppdir p.number b .output) p s rfl).symm
  | inputWithPullup => rfl

/-- A port-level command in range has its effect on its port (R142 to R147). -/
theorem exec_portLevel_inRange {s : State} (hwf : s.cfg.wf = true) {i : Instr} {p : Port} {pin : Option Nat}
    (hi : portLevel i = some (p.number, pin)) (hpin : ∀ n, pin = some n → n < 8) :
    exec i s = .next (portEffect i p s) := by
  cases i <;> simp only [portLevel, reduceCtorEq, Option.some.injEq, Prod.mk.injEq] at hi
  all_goals obtain ⟨rfl, rfl⟩ := hi
  case ppdir n dir =>
    rw [← directed_eq_portEffect dir p ⟨n, hpin n rfl⟩ s]
    exact exec_ppdir_inRange hwf p ⟨n, hpin n rfl⟩ dir
  case ppset n level =>
    rw [portEffect_eq_writeOut _ _ _ rfl]
    exact exec_ppset_inRange hwf p ⟨n, hpin n rfl⟩ level
  case pptgl n =>
    rw [portEffect_eq_writeOut _ _ _ rfl]
    exact exec_pptgl_inRange hwf p ⟨n, hpin n rfl⟩
  case ppget n =>
    rw [portEffect_eq_respond _ _ _ rfl rfl]
    exact exec_ppget_inRange hwf p ⟨n, hpin n rfl⟩
  case portdir val =>
    rw [portEffect_eq_writeDir _ _ _ rfl]
    exact exec_portdir_inRange hwf p val
  case portset val =>
    rw [portEffect_eq_writeOut _ _ _ rfl]
    exact exec_portset_inRange hwf p val

/-- A port-level command out of range only answers (R141). -/
theorem exec_portLevel_outOfRange (s : State) {i : Instr} {port : Nat} {pin : Option Nat}
    (hi : portLevel i = some (port, pin)) (h : 4 ≤ port ∨ ∃ n, pin = some n ∧ 8 ≤ n) :
    exec i s = .next (respond s (sentinel i)) := by
  cases i <;> simp only [portLevel, reduceCtorEq, Option.some.injEq, Prod.mk.injEq] at hi
  all_goals obtain ⟨rfl, rfl⟩ := hi
  case portdir | portset =>
    simp only [exec, execPortdir, execPortset]
    exact wholePort_outOfRange (by simpa using h) _ s
  all_goals
    simp only [exec, execPpdir, execPpset, execPptgl, execPpget]
    exact portPin_outOfRange (by simpa using h) _ _ s

/-- The effect of an indexed command is that of its port-level form (R125). -/
theorem portEffect_directForm (i : Instr) : portEffect (directForm i) = portEffect i := by
  cases i <;> rfl

theorem pinId_div (p : Port) (b : Fin 8) : pinId p b / 8 = p.number := by
  unfold pinId
  omega

theorem pinId_mod (p : Port) (b : Fin 8) : pinId p b % 8 = b := by
  unfold pinId
  omega

/-- The port-level form of an indexed command is on the port and the pin of the identifier (R125). -/
theorem portLevel_directForm {i : Instr} {id : Nat} (hi : indexedId i = some id) :
    portLevel (directForm i) = some (id / 8, some (id % 8)) := by
  cases i <;> simp_all [indexedId, directForm, portLevel]

/-- An indexed command in range is its port-level form with the latch emptied (R125, R39). -/
theorem exec_indexed_eq_directForm {s : State} (hwf : s.cfg.wf = true) {i : Instr} {id : Nat}
    (hi : indexedId i = some id) (hid : id < 32) : exec i s = exec (directForm i) (dropLatch s) := by
  obtain ⟨p, b, rfl⟩ := exists_pinId hid
  cases i <;> simp only [indexedId, reduceCtorEq, Option.some.injEq] at hi
  all_goals subst hi; simp only [directForm, pinId_div, pinId_mod]
  case pindir dir =>
    rw [exec_pindir_inRange hwf, exec_ppdir_inRange (s := dropLatch s) hwf]
    cases dir <;> rfl
  case pinset level =>
    rw [exec_pinset_inRange hwf, exec_ppset_inRange (s := dropLatch s) hwf]
    rfl
  case pinget =>
    rw [exec_pinget_inRange hwf, exec_ppget_inRange (s := dropLatch s) hwf]
    rfl

/-- An indexed command in range has its effect on the port of its identifier and empties the latch (R122 to
R124, R39). -/
theorem exec_indexed_inRange {s : State} (hwf : s.cfg.wf = true) {i : Instr} {p : Port} {b : Fin 8}
    (hi : indexedId i = some (pinId p b)) : exec i s = .next (portEffect i p (dropLatch s)) := by
  have hpl := portLevel_directForm hi
  rw [pinId_div, pinId_mod] at hpl
  rw [exec_indexed_eq_directForm hwf hi (pinId_lt p b),
    exec_portLevel_inRange (s := dropLatch s) hwf hpl (by rintro n ⟨⟩; exact b.isLt), portEffect_directForm]

/-- An indexed command out of range only answers (R121). -/
theorem exec_indexed_outOfRange (s : State) {i : Instr} {id : Nat} (hi : indexedId i = some id)
    (h : 32 ≤ id) : exec i s = .next (respond s (sentinel i)) := by
  cases i <;> simp only [indexedId, reduceCtorEq, Option.some.injEq] at hi
  all_goals
    subst hi
    simp only [exec, execPindir, execPinset, execPinget]
    exact indexed_outOfRange h _ _ s

/-! ### Bits of the port's registers -/

section
variable (b : Nat) (v : Byte) {k : Nat} (hk : k < 8)
include hk

theorem getLsbD_setBit : (setBits (bit b) v).getLsbD k = if k = b then true else v.getLsbD k := by
  rw [getLsbD_setBits, getLsbD_bit b k hk]
  split <;> simp [*]

theorem getLsbD_clearBit : (clearBits (bit b) v).getLsbD k = if k = b then false else v.getLsbD k := by
  rw [getLsbD_clearBits _ _ hk, getLsbD_bit b k hk]
  split <;> simp [*]

theorem getLsbD_toggleBit :
    (toggleBits (bit b) v).getLsbD k = if k = b then !v.getLsbD k else v.getLsbD k := by
  rw [getLsbD_toggleBits, getLsbD_bit b k hk]
  split <;> simp [*]

theorem getLsbD_dirBits (dir : Direction) :
    (dirBits dir (bit b) v).getLsbD k = if k = b then decide (dir = .output) else v.getLsbD k := by
  cases dir with
  | input => exact getLsbD_clearBit b v hk
  | output => exact getLsbD_setBit b v hk
  | inputWithPullup => exact getLsbD_clearBit b v hk

theorem getLsbD_pullupBits (dir : Direction) : (pullupBits dir (bit b) v).getLsbD k =
    if k = b then decide (dir = .inputWithPullup) || v.getLsbD k else v.getLsbD k := by
  cases dir with
  | input => exact (ite_self _).symm
  | output => exact (ite_self _).symm
  | inputWithPullup => exact getLsbD_setBit b v hk

theorem getLsbD_levelBits (level : Level) :
    (levelBits level (bit b) v).getLsbD k = if k = b then decide (level = .high) else v.getLsbD k := by
  cases level with
  | low => exact getLsbD_clearBit b v hk
  | high => exact getLsbD_setBit b v hk

end

/-- The pin number of a GPIO command on a single pin. -/
def pinOf (i : Instr) : Option Nat :=
  match indexedId i with
  | some id => some (id % 8)
  | none => (portLevel i).bind Prod.snd

/-- A command on a single pin keeps the other seven bits of its port's direction register (R126, R148). -/
theorem getLsbD_newDir_other {i : Instr} {b : Nat} (hi : pinOf i = some b) (v : Byte) {k : Nat}
    (hk : k < 8) (hne : k ≠ b) : (newDir i v).getLsbD k = v.getLsbD k := by
  cases i <;> simp only [pinOf, indexedId, portLevel, Option.bind, Option.some.injEq, reduceCtorEq] at hi <;>
    simp only [newDir, hi, getLsbD_dirBits _ _ hk, hne, if_false]

/-- A command on a single pin keeps the other seven bits of its port's output register (R126, R148). -/
theorem getLsbD_newOut_other {i : Instr} {b : Nat} (hi : pinOf i = some b) (v : Byte) {k : Nat}
    (hk : k < 8) (hne : k ≠ b) : (newOut i v).getLsbD k = v.getLsbD k := by
  cases i <;> simp only [pinOf, indexedId, portLevel, Option.bind, Option.some.injEq, reduceCtorEq] at hi <;>
    simp only [newOut, hi, getLsbD_pullupBits _ _ hk, getLsbD_levelBits _ _ hk, getLsbD_toggleBit _ _ hk, hne,
      if_false]

end Sys2Proof.Machine

/-! SUPPORT. The statements on the GPIO commands, from the effect of a command on its port. -/

namespace Sys2Proof.Machine

/-! ### Indexed GPIO -/

/-- Settles O12: the bits that PINDIR gives its pin. -/
theorem pindirSetsTheDirection : Obligations.PindirSetsTheDirection := by
  intro s p b dir hwf
  refine ⟨_, exec_indexed_inRange hwf rfl, ?_, ?_, rfl⟩
  · simp only [portEffect_dir, newDir, pinId_mod, getLsbD_dirBits _ _ b.isLt, if_pos]
  · simp only [portEffect_out, newOut, pinId_mod, getLsbD_pullupBits _ _ b.isLt, if_pos, readReg_dropLatch]

/-- Settles O13: the bits that PINSET gives its pin. -/
theorem pinsetSetsTheLevel : Obligations.PinsetSetsTheLevel := by
  intro s p b level hwf
  refine ⟨_, exec_indexed_inRange hwf rfl, ?_, portEffect_dir _ _ _, rfl⟩
  simp only [portEffect_out, newOut, pinId_mod, getLsbD_levelBits _ _ b.isLt, if_pos]

/-- Settles O15: an identifier out of range only gives the answer none. -/
theorem identifierOutOfRangeIsNoOp : Obligations.IdentifierOutOfRangeIsNoOp :=
  fun s _ _ _ hid => ⟨exec_indexed_outOfRange s rfl hid, exec_indexed_outOfRange s rfl hid⟩

/-- Settles O16: the indexed command is its port-level form after the latch is emptied, and it is empty. -/
theorem indexedEqualsPortLevel : Obligations.IndexedEqualsPortLevel := by
  intro s i id hwf hlatch hi hid
  have hdrop : dropLatch s = s := by rw [dropLatch, ← hlatch]
  rw [exec_indexed_eq_directForm hwf hi hid, hdrop]

/-- Settles O17: the effect changes the pin's bit of two registers at most; out of range only the response. -/
theorem indexedFrame : Obligations.IndexedFrame := by
  intro s i id hwf hi
  refine ⟨?_, fun hid => ⟨_, exec_indexed_outOfRange s hi hid, rfl⟩⟩
  rintro p b rfl
  have hpin : pinOf i = some b.val := by simp [pinOf, hi, pinId_mod]
  refine ⟨_, exec_indexed_inRange hwf hi, fun r hd ho => portEffect_other _ _ _ hd ho, fun k hk hne => ⟨?_, ?_⟩,
    rfl⟩
  · rw [portEffect_dir, getLsbD_newDir_other hpin _ hk hne, readReg_dropLatch]
  · rw [portEffect_out, getLsbD_newOut_other hpin _ hk hne, readReg_dropLatch]

/-! ### Port-level GPIO -/

/-- A single-pin port-level command on a pin of a port has its effect there (R142 to R145). -/
theorem exec_portPin_inRange {s : State} (hwf : s.cfg.wf = true) {i : Instr} {p : Port} {b : Fin 8}
    (hi : portLevel i = some (p.number, some b.val)) : exec i s = .next (portEffect i p s) :=
  exec_portLevel_inRange hwf hi (by rintro n ⟨⟩; exact b.isLt)

/-- A whole-port command on a port has its effect there (R146, R147). -/
theorem exec_wholePort_inRange {s : State} (hwf : s.cfg.wf = true) {i : Instr} {p : Port}
    (hi : portLevel i = some (p.number, none)) : exec i s = .next (portEffect i p s) :=
  exec_portLevel_inRange hwf hi (by rintro n ⟨⟩)

/-- Settles O18: the bits that PPDIR gives its pin. -/
theorem ppdirSetsTheDirection : Obligations.PpdirSetsTheDirection := by
  intro s p b dir hwf
  refine ⟨_, exec_portPin_inRange hwf rfl, ?_, ?_, rfl⟩
  · simp only [portEffect_dir, newDir, getLsbD_dirBits _ _ b.isLt, if_pos]
  · simp only [portEffect_out, newOut, getLsbD_pullupBits _ _ b.isLt, if_pos]

/-- Settles O19: the bits that PPSET gives its pin. -/
theorem ppsetSetsTheLevel : Obligations.PpsetSetsTheLevel := by
  intro s p b level hwf
  refine ⟨_, exec_portPin_inRange hwf rfl, ?_, portEffect_dir _ _ _, rfl⟩
  simp only [portEffect_out, newOut, getLsbD_levelBits _ _ b.isLt, if_pos]

/-- Settles O20: a toggle inverts the pin's bit, and a second toggle of the same mask undoes the first. -/
theorem pptglInvertsTheLevel : Obligations.PptglInvertsTheLevel := by
  intro s p b hwf
  refine ⟨_, _, exec_portPin_inRange hwf rfl, exec_portPin_inRange (by exact hwf) rfl, ?_,
    portEffect_dir _ _ _, rfl, regSpace_ext fun r => ?_⟩
  · simp only [portEffect_out, newOut, getLsbD_toggleBit _ _ b.isLt, if_pos]
  · show readReg _ r = readReg s r
    by_cases hd : r = .dir p
    · subst hd
      simp [newDir]
    by_cases ho : r = .out p
    · subst ho
      simp [newOut]
    rw [portEffect_other _ _ _ hd ho, portEffect_other _ _ _ hd ho]

/-- Settles O21: a read keeps both registers of the port and answers the pin's input bit. -/
theorem ppgetReadsTheInputBit : Obligations.PpgetReadsTheInputBit := by
  intro s p b hwf
  refine ⟨_, exec_portPin_inRange hwf rfl, rfl, ?_⟩
  rw [portEffect_eq_respond _ _ _ rfl rfl]
  rfl

/-- Settles O22: the effect of PORTDIR on the two registers. -/
theorem portdirWritesTheDirectionRegister : Obligations.PortdirWritesTheDirectionRegister :=
  fun _ _ _ hwf => ⟨_, exec_wholePort_inRange hwf rfl, portEffect_dir _ _ _, portEffect_out _ _ _, rfl⟩

/-- Settles O23: the effect of PORTSET on the two registers. -/
theorem portsetWritesTheOutputRegister : Obligations.PortsetWritesTheOutputRegister :=
  fun _ _ _ hwf => ⟨_, exec_wholePort_inRange hwf rfl, portEffect_out _ _ _, portEffect_dir _ _ _, rfl⟩

/-- Settles O24: a port or pin out of range only gives the sentinel answer. -/
theorem portOrPinOutOfRangeIsNoOp : Obligations.PortOrPinOutOfRangeIsNoOp := by
  intro s port pin dir level val
  refine ⟨fun h => ?_, fun h => ?_⟩
  · have hout : 4 ≤ port ∨ ∃ n, some pin = some n ∧ 8 ≤ n := h.imp_right fun hpin => ⟨pin, rfl, hpin⟩
    exact ⟨exec_portLevel_outOfRange s rfl hout, exec_portLevel_outOfRange s rfl hout,
      exec_portLevel_outOfRange s rfl hout, exec_portLevel_outOfRange s rfl hout⟩
  · exact ⟨exec_portLevel_outOfRange s rfl (.inl h), exec_portLevel_outOfRange s rfl (.inl h)⟩

/-- The pin number of a port-level command is the one it names. -/
theorem pinOf_of_portLevel {i : Instr} {port : Nat} {pin : Option Nat} (hi : portLevel i = some (port, pin)) :
    pinOf i = pin := by
  cases i <;> simp only [portLevel, reduceCtorEq, Option.some.injEq, Prod.mk.injEq] at hi
  all_goals
    obtain ⟨rfl, rfl⟩ := hi
    rfl

/-- Settles O25: the effect changes the pin's bits, or the two registers, at most; out of range only the
response. -/
theorem portLevelFrame : Obligations.PortLevelFrame := by
  intro s i port pin hwf hi
  refine ⟨?_, fun hout => ⟨_, exec_portLevel_outOfRange s hi hout, rfl⟩⟩
  rintro p rfl hpin
  refine ⟨_, exec_portLevel_inRange hwf hi hpin, fun r hd ho => portEffect_other _ _ _ hd ho, ?_, fun hop => ?_,
    rfl⟩
  · rintro n rfl k hk hne
    have hn := pinOf_of_portLevel hi
    exact ⟨by rw [portEffect_dir, getLsbD_newDir_other hn _ hk hne],
      by rw [portEffect_out, getLsbD_newOut_other hn _ hk hne]⟩
  · cases i <;> simp only [Instr.op, reduceCtorEq] at hop
    rw [portEffect_eq_respond _ _ _ rfl rfl, respond_regs]

/-! ### A whole port against its eight pins (R149) -/

/-- One bit of a byte assigned. -/
def assignBit (b : Nat) (x : Bool) (w : Byte) : Byte := if x then setBits (bit b) w else clearBits (bit b) w

/-- The bits at some positions assigned from another byte, one after the other. -/
def assignBits (v : Byte) (l : List Nat) (w : Byte) : Byte :=
  l.foldl (fun w b => assignBit b (v.getLsbD b) w) w

theorem getLsbD_assignBit (b : Nat) (x : Bool) (w : Byte) {k : Nat} (hk : k < 8) :
    (assignBit b x w).getLsbD k = if k = b then x else w.getLsbD k := by
  cases x with
  | false => exact getLsbD_clearBit b w hk
  | true => exact getLsbD_setBit b w hk

theorem getLsbD_assignBits (v : Byte) (l : List Nat) (w : Byte) {k : Nat} (hk : k < 8) :
    (assignBits v l w).getLsbD k = if k ∈ l then v.getLsbD k else w.getLsbD k := by
  induction l generalizing w with
  | nil => simp [assignBits]
  | cons b l ih =>
    show (assignBits v l (assignBit b (v.getLsbD b) w)).getLsbD k = _
    rw [ih, getLsbD_assignBit _ _ _ hk]
    by_cases hb : k = b <;> simp [hb]

/-- Assigning all eight bits gives the other byte. -/
theorem assignBits_range (v w : Byte) : assignBits v (List.range 8) w = v := by
  apply BitVec.eq_of_getLsbD_eq
  intro k hk
  rw [getLsbD_assignBits v _ w hk, if_pos (List.mem_range.mpr hk)]

/-- A family of commands, one a pin and a bit, of which each assigns that bit of one register. -/
def AssignsPin (cmd : Nat → Bool → Instr) (r : Reg) : Prop :=
  ∀ (s : State) (b : Nat) (x : Bool), s.cfg.wf = true → b < 8 →
    exec (cmd b x) s = .next (writeReg (respond s none) r (assignBit b x (readReg s r)))

/-- A sequence of such commands assigns their bits, one after the other. -/
theorem execAll_assignsPin {cmd : Nat → Bool → Instr} {r : Reg} (hcmd : AssignsPin cmd r) (v : Byte)
    {l : List Nat} (hl : ∀ b ∈ l, b < 8) {s : State} (hwf : s.cfg.wf = true) :
    execAll (l.map fun b => cmd b (v.getLsbD b)) (respond s none)
      = .next (respond (writeReg s r (assignBits v l (readReg s r))) none) := by
  induction l generalizing s with
  | nil =>
    rw [assignBits, List.foldl_nil, writeReg_self rfl]
    rfl
  | cons b l ih =>
    have hfirst := hcmd (respond s none) b (v.getLsbD b) hwf (hl b List.mem_cons_self)
    have hrest := ih (fun c hc => hl c (List.mem_cons_of_mem b hc))
      (s := writeReg s r (assignBit b (v.getLsbD b) (readReg s r))) hwf
    rw [readReg_writeReg, if_pos rfl, writeReg_writeReg] at hrest
    rw [List.map_cons, execAll, hfirst]
    exact hrest

/-- Eight such commands, one a pin, replace the register. -/
theorem execAll_eightPins {cmd : Nat → Bool → Instr} {r : Reg} (hcmd : AssignsPin cmd r) (v : Byte)
    {s : State} (hwf : s.cfg.wf = true) :
    execAll ((pinsOf v).map fun x => cmd x.1 x.2) s = .next (respond (writeReg s r v) none) := by
  have hforget : exec (cmd 0 (v.getLsbD 0)) s = exec (cmd 0 (v.getLsbD 0)) (respond s none) := by
    rw [hcmd s 0 _ hwf (by decide), hcmd (respond s none) 0 _ hwf (by decide)]
    rfl
  have hall := execAll_assignsPin hcmd v (l := List.range 8) (fun b hb => List.mem_range.mp hb) hwf
  rw [assignBits_range] at hall
  rw [← hall, pinsOf, List.map_map, List.range_succ_eq_map, List.map_cons, List.map_cons, execAll, execAll,
    ← hforget]
  rfl

/-- PPDIR with the direction of a bit assigns it in the direction register (R142). -/
theorem ppdir_assignsPin (p : Port) :
    AssignsPin (fun b x => .ppdir p.number b (if x then .output else .input)) (.dir p) := by
  intro s b x hwf hb
  rw [exec_portPin_inRange (b := ⟨b, hb⟩) hwf rfl]
  cases x <;> rw [portEffect_eq_writeDir _ _ _ rfl] <;> rfl

/-- PPSET with the level of a bit assigns it in the output register (R143). -/
theorem ppset_assignsPin (p : Port) :
    AssignsPin (fun b x => .ppset p.number b (if x then .high else .low)) (.out p) := by
  intro s b x hwf hb
  rw [exec_portPin_inRange (b := ⟨b, hb⟩) hwf rfl, portEffect_eq_writeOut _ _ _ rfl]
  cases x <;> rfl

/-- Settles O26: both sides replace the one register by the operand. -/
theorem wholePortEqualsEightPins : Obligations.WholePortEqualsEightPins := by
  intro s p v hwf
  exact ⟨_, _, exec_portdir_inRange hwf p v, execAll_eightPins (ppdir_assignsPin p) v hwf,
    exec_portset_inRange hwf p v, execAll_eightPins (ppset_assignsPin p) v hwf⟩

/-! ### What GPIO commands depend on -/

/-- The GPIO commands: the indexed and the port-level ones. -/
def IsGpio (i : Instr) : Prop := indexedId i ≠ none ∨ portLevel i ≠ none

/-- Everything a GPIO command can do, the same in every state: answer only, or have its effect on one port,
the indexed commands with the latch emptied. -/
theorem exec_gpio {i : Instr} (hi : IsGpio i) :
    (∀ s, exec i s = .next (respond s (sentinel i))) ∨
    (∃ p, ∀ s, s.cfg.wf = true → exec i s = .next (portEffect i p s)) ∨
    (∃ p, ∀ s, s.cfg.wf = true → exec i s = .next (portEffect i p (dropLatch s))) := by
  rcases hi with hi | hi
  · obtain ⟨id, hid⟩ := Option.ne_none_iff_exists'.mp hi
    by_cases hr : id < 32
    · obtain ⟨p, b, rfl⟩ := exists_pinId hr
      exact .inr (.inr ⟨p, fun s hwf => exec_indexed_inRange hwf hid⟩)
    · exact .inl fun s => exec_indexed_outOfRange s hid (Nat.not_lt.mp hr)
  · obtain ⟨⟨port, pin⟩, hpl⟩ := Option.ne_none_iff_exists'.mp hi
    by_cases hout : 4 ≤ port ∨ ∃ n, pin = some n ∧ 8 ≤ n
    · exact .inl fun s => exec_portLevel_outOfRange s hpl hout
    · obtain ⟨hport, hpin⟩ := not_or.mp hout
      obtain ⟨p, rfl⟩ := exists_number (Nat.not_le.mp hport)
      exact .inr (.inl ⟨p, fun s hwf => exec_portLevel_inRange hwf hpl fun n hn =>
        Nat.not_le.mp fun h => hpin ⟨n, hn, h⟩⟩)

/-- Reads are GPIO commands. -/
theorem isGpio_of_read {i : Instr} (h : i.op = .pinget ∨ i.op = .ppget) : IsGpio i := by
  cases i <;> simp_all [Instr.op, IsGpio, indexedId, portLevel]

/-- Settles O27: the answer is the sentinel, or a bit of the port's input register. -/
theorem readsDependOnInputsOnly : Obligations.ReadsDependOnInputsOnly := by
  intro s s' i hwf hcfg hin hi
  have hwf' : s'.cfg.wf = true := hcfg ▸ hwf
  rcases exec_gpio (isGpio_of_read hi) with h | ⟨p, h⟩ | ⟨p, h⟩
  · exact ⟨_, _, h s, h s', rfl⟩
  · exact ⟨_, _, h s hwf, h s' hwf', congrArg (answer i) (hin p)⟩
  · exact ⟨_, _, h s hwf, h s' hwf', congrArg (answer i) (hin p)⟩

/-- The effect of a command on a port depends on the port registers alone. -/
theorem portEffect_samePorts (i : Instr) (p : Port) {s s' : State} (h : SamePorts s s') :
    SamePorts (portEffect i p s) (portEffect i p s') ∧
      (portEffect i p s).resp = (portEffect i p s').resp := by
  obtain ⟨hcfg, hports⟩ := h
  refine ⟨⟨hcfg, fun q => ?_⟩, ?_⟩
  · obtain ⟨hd, ho, hin⟩ := hports q
    simp only [portEffect, readReg_respond, readReg_writeReg, (hports p).1, (hports p).2.1, hd, ho, hin, and_self]
  · simp only [portEffect_resp, (hports p).2.2]

/-- Settles O51: the effect and the answer depend on the port registers alone. -/
theorem gpioIgnoresTheTimerHalf : Obligations.GpioIgnoresTheTimerHalf := by
  intro s s' i hwf hsame hi
  have hwf' : s'.cfg.wf = true := hsame.1 ▸ hwf
  rcases exec_gpio hi with h | ⟨p, h⟩ | ⟨p, h⟩
  · exact ⟨_, _, h s, h s', hsame, rfl⟩
  · exact ⟨_, _, h s hwf, h s' hwf', portEffect_samePorts i p hsame⟩
  · exact ⟨_, _, h s hwf, h s' hwf', portEffect_samePorts i p (s := dropLatch s) (s' := dropLatch s') hsame⟩

end Sys2Proof.Machine

/-! SUPPORT. The statements on the Timer0 commands, from the state that T0INIT leaves and the bits of its two
registers (R170 to R178). -/

namespace Sys2Proof.Machine

/-! ### The encoder and the interrupt-enable update -/

/-- The new control register depends on the old one through the new force-output-compare bit alone (R172). -/
theorem encTctrl_congr {cfg : Config} {mode : T0Mode} {old old' : Byte}
    (h : newFoc cfg mode old = newFoc cfg mode old') (ck : BitVec 3) (cm : BitVec 2) :
    encTctrl cfg mode ck cm old = encTctrl cfg mode ck cm old' := by
  apply BitVec.eq_of_getLsbD_eq
  intro k hk
  rw [getLsbD_encTctrl _ _ _ _ _ hk, getLsbD_encTctrl _ _ _ _ _ hk, h]

/-- Outside Normal mode the new force-output-compare bit is the old one where the policy keeps it (R172). -/
theorem newFoc_of_ne_normal {mode : T0Mode} (h : mode ≠ .normal) (cfg : Config) (old : Byte) :
    newFoc cfg mode old = (cfg.pFocKeep && old.getLsbD cfg.focB) := by
  cases mode with
  | normal => exact absurd rfl h
  | ctc => rfl
  | fastPwm => rfl

/-- Equal force-output-compare bits, where they are kept, give equal new ones (R172). -/
theorem newFoc_congr {cfg : Config} {mode : T0Mode} {old old' : Byte}
    (h : mode ≠ .normal → cfg.pFocKeep = true → old.getLsbD cfg.focB = old'.getLsbD cfg.focB) :
    newFoc cfg mode old = newFoc cfg mode old' := by
  by_cases hm : mode = .normal
  · subst hm
    rfl
  · rw [newFoc_of_ne_normal hm, newFoc_of_ne_normal hm]
    cases hk : cfg.pFocKeep with
    | false => rfl
    | true => rw [h hm hk]

/-- Settles O32: the old content enters by one bit, in CTC and FastPWM under the policy. -/
theorem encoderForgetsTheOldContent : Obligations.EncoderForgetsTheOldContent := by
  intro cfg mode ck cm old old' hwf h
  refine ⟨encTctrl_congr (newFoc_congr h) ck cm, fun hm hk => ?_⟩
  rw [encTctrl_foc hwf, newFoc_of_ne_normal hm, hk, Bool.true_and]

/-- Encoding again over an encoded register changes nothing (R172, R175 (a)). -/
theorem encTctrl_encTctrl {cfg : Config} (hwf : cfg.wf = true) (mode : T0Mode) (ck : BitVec 3)
    (cm : BitVec 2) (old : Byte) :
    encTctrl cfg mode ck cm (encTctrl cfg mode ck cm old) = encTctrl cfg mode ck cm old :=
  encTctrl_congr (newFoc_congr fun hm hk => by
    rw [encTctrl_foc hwf, newFoc_of_ne_normal hm, hk, Bool.true_and]) ck cm

/-- Updating an enable bit again changes nothing (R174). -/
theorem ieUpd_ieUpd (cfg : Config) (b : Nat) (ie : Bool) (t : Byte) :
    ieUpd cfg b ie (ieUpd cfg b ie t) = ieUpd cfg b ie t := by
  apply BitVec.eq_of_getLsbD_eq
  intro j hj
  simp only [getLsbD_ieUpd _ _ _ _ hj]
  by_cases h : j = b
  · simp only [h, if_pos]
    cases ie <;> cases cfg.pIeAssign <;> rfl
  · simp only [h, if_neg, not_false_eq_true]

/-- Settles O33: the update, bit by bit. -/
theorem interruptEnableUpdate : Obligations.InterruptEnableUpdate := by
  intro cfg k ie t hk
  refine ⟨?_, fun j hj hne => ?_, ieUpd_ieUpd cfg k ie t⟩
  · rw [getLsbD_ieUpd _ _ _ _ hk, if_pos rfl]
  · rw [getLsbD_ieUpd _ _ _ _ hj, if_neg hne]

/-! ### T0INIT -/

section
variable {s : State} (mode : T0Mode) (ie : Bool) (clk com tick init : Byte)

/-- The clock-source field that T0INIT leaves (R170, R171). -/
theorem initialised_cs (hwf : s.cfg.wf = true) {k : Nat} (hk : k < 3) :
    (readReg (initialised mode ie clk com tick init s) .tctrl).getLsbD (s.cfg.csLsb + k) = clk.getLsbD k := by
  rw [initialised_tctrl, encTctrl_cs hwf _ _ _ _ hk, getLsbD_maskClk clk hk]

/-- The compare-output field that T0INIT leaves outside Normal mode (R170, R171). -/
theorem initialised_com (hwf : s.cfg.wf = true) (hm : mode ≠ .normal) {k : Nat} (hk : k < 2) :
    (readReg (initialised mode ie clk com tick init s) .tctrl).getLsbD (s.cfg.comLsb + k) = com.getLsbD k := by
  have hcom : newCom mode (maskCom com) = maskCom com := by
    cases mode with
    | normal => exact absurd rfl hm
    | ctc => rfl
    | fastPwm => rfl
  rw [initialised_tctrl, encTctrl_com hwf _ _ _ _ hk, hcom, getLsbD_maskCom com hk]

/-- The low waveform-generation bit that T0INIT leaves (R170). -/
theorem initialised_wgmLo (hwf : s.cfg.wf = true) :
    (readReg (initialised mode ie clk com tick init s) .tctrl).getLsbD s.cfg.wgmLoB = decide (mode = .fastPwm) := by
  rw [initialised_tctrl, encTctrl_wgmLo hwf]

/-- The high waveform-generation bit that T0INIT leaves (R170). -/
theorem initialised_wgmHi (hwf : s.cfg.wf = true) :
    (readReg (initialised mode ie clk com tick init s) .tctrl).getLsbD s.cfg.wgmHiB = decide (mode ≠ .normal) := by
  rw [initialised_tctrl, encTctrl_wgmHi hwf]

/-- The force-output-compare bit that T0INIT leaves outside Normal mode (R172). -/
theorem initialised_foc (hwf : s.cfg.wf = true) (hm : mode ≠ .normal) :
    (readReg (initialised mode ie clk com tick init s) .tctrl).getLsbD s.cfg.focB =
      (s.cfg.pFocKeep && (readReg s .tctrl).getLsbD s.cfg.focB) := by
  rw [initialised_tctrl, encTctrl_foc hwf, newFoc_of_ne_normal hm]

/-- In Normal mode T0INIT sets the force-output-compare bit (R170). -/
theorem initialised_foc_normal (hwf : s.cfg.wf = true) :
    (readReg (initialised .normal ie clk com tick init s) .tctrl).getLsbD s.cfg.focB = true := by
  rw [initialised_tctrl, encTctrl_foc hwf, newFoc]

/-- In Normal mode T0INIT clears the compare-output field (R170). -/
theorem initialised_com_normal (hwf : s.cfg.wf = true) {k : Nat} (hk : k < 2) :
    (readReg (initialised .normal ie clk com tick init s) .tctrl).getLsbD (s.cfg.comLsb + k) = false := by
  rw [initialised_tctrl, encTctrl_com hwf _ _ _ _ hk]
  exact BitVec.getLsbD_zero

/-- The enable bit that T0INIT updates: overflow in Normal, compare match in CTC, none in FastPWM (R173). -/
def enableBit (cfg : Config) (mode : T0Mode) : Option Nat :=
  match mode with
  | .normal => some cfg.toieB
  | .ctc => some cfg.ocieB
  | .fastPwm => none

/-- Every bit of the interrupt-mask register that T0INIT leaves (R173, R174). -/
theorem initialised_timsk_bit {k : Nat} (hk : k < 8) :
    (readReg (initialised mode ie clk com tick init s) .timsk).getLsbD k =
      if enableBit s.cfg mode = some k then (ie || (!s.cfg.pIeAssign && (readReg s .timsk).getLsbD k))
      else (readReg s .timsk).getLsbD k := by
  cases mode <;>
    simp only [initialised_timsk_normal, initialised_timsk_ctc, initialised_timsk_fastPwm, enableBit,
      getLsbD_ieUpd _ _ _ _ hk, Option.some.injEq, reduceCtorEq, if_false, eq_comm]

end

/-- Settles O28: the Normal row of R170's table, field by field. -/
theorem t0initNormalEffect : Obligations.T0initNormalEffect := by
  intro s ie clk com tick init hwf
  obtain ⟨hocie, htoie, hne⟩ := enableLayout hwf
  refine ⟨_, exec_t0init hwf _ _ _ _ _ _, initialised_tcnt .., initialised_tcmp_normal .., ?_, ?_,
    initialised_foc_normal _ _ _ _ _ hwf, initialised_wgmLo _ _ _ _ _ _ hwf,
    initialised_wgmHi _ _ _ _ _ _ hwf, fun k hk => initialised_com_normal _ _ _ _ _ hwf hk,
    fun k hk => initialised_cs _ _ _ _ _ _ hwf hk, rfl, rfl⟩
  · rw [initialised_timsk_bit _ _ _ _ _ _ htoie, enableBit, if_pos rfl]
  · rw [initialised_timsk_bit _ _ _ _ _ _ hocie, enableBit, if_neg (by simpa using hne.symm)]

/-- Settles O29: the CTC row of R170's table, field by field. -/
theorem t0initCtcEffect : Obligations.T0initCtcEffect := by
  intro s ie clk com tick init hwf
  obtain ⟨hocie, htoie, hne⟩ := enableLayout hwf
  have hm : T0Mode.ctc ≠ .normal := by decide
  refine ⟨_, exec_t0init hwf _ _ _ _ _ _, initialised_tcnt .., initialised_tcmp _ _ _ _ _ _ _ hm, ?_, ?_,
    initialised_foc _ _ _ _ _ _ hwf hm, initialised_wgmLo _ _ _ _ _ _ hwf, initialised_wgmHi _ _ _ _ _ _ hwf,
    fun k hk => initialised_com _ _ _ _ _ _ hwf hm hk, fun k hk => initialised_cs _ _ _ _ _ _ hwf hk, rfl, rfl⟩
  · rw [initialised_timsk_bit _ _ _ _ _ _ hocie, enableBit, if_pos rfl]
  · rw [initialised_timsk_bit _ _ _ _ _ _ htoie, enableBit, if_neg (by simpa using hne)]

/-- Settles O30: the FastPWM row of R170's table, field by field. -/
theorem t0initFastPwmEffect : Obligations.T0initFastPwmEffect := by
  intro s ie clk com tick init hwf
  have hm : T0Mode.fastPwm ≠ .normal := by decide
  exact ⟨_, exec_t0init hwf _ _ _ _ _ _, initialised_tcnt .., initialised_tcmp _ _ _ _ _ _ _ hm,
    initialised_timsk_fastPwm .., initialised_foc _ _ _ _ _ _ hwf hm, initialised_wgmLo _ _ _ _ _ _ hwf,
    initialised_wgmHi _ _ _ _ _ _ hwf, fun k hk => initialised_com _ _ _ _ _ _ hwf hm hk,
    fun k hk => initialised_cs _ _ _ _ _ _ hwf hk, rfl, rfl⟩

/-- T0INIT with the same operands again changes nothing (R175 (a)). -/
theorem initialised_initialised {s : State} (hwf : s.cfg.wf = true) (mode : T0Mode) (ie : Bool)
    (clk com tick init : Byte) :
    initialised mode ie clk com tick init (initialised mode ie clk com tick init s)
      = initialised mode ie clk com tick init s := by
  have hregs : timerRegs mode ie clk com tick init (initialised mode ie clk com tick init s)
      = timerRegs mode ie clk com tick init s := by
    cases mode <;>
      simp only [timerRegs, initialised_cfg, initialised_regs, encTctrl_encTctrl hwf, ieUpd_ieUpd]
  rw [initialised, hregs]
  rfl

/-! ### The other commands -/

/-- Settles O35: the last write of the compare register is T0DUTY's. -/
theorem t0dutyWritesTheCompareRegister : Obligations.T0dutyWritesTheCompareRegister := by
  refine ⟨fun s value hwf => ⟨_, exec_t0duty hwf value, by simp, rfl⟩,
    fun s mode ie clk com tick init value hwf => ?_⟩
  have hduty := exec_t0duty (s := initialised mode ie clk com tick init s) hwf value
  refine ⟨writeReg (respond (initialised mode ie clk com tick init s) none) .tcmp value, ?_, by simp, rfl⟩
  simp only [execAll, exec_t0init hwf, hduty]

/-- T0CB is refused while a callback is in service (R177). -/
theorem exec_t0cb_inService {s : State} (h : s.inService = true) (handle : Handle) :
    exec (.t0cb handle) s = .refused .callbackInService := by
  simp only [exec, execT0cb, h, if_pos]

/-- Settles O36: the handle of an operand that fits is the operand, of any other some handle of `CBW` bits. -/
theorem t0cbFillsTheSlot : Obligations.T0cbFillsTheSlot := by
  intro s handle
  refine ⟨fun hs hlt => ?_, fun hs _ => ⟨_, handleOf_lt s.cfg handle, exec_t0cb hs handle⟩,
    fun hs => exec_t0cb_inService hs handle⟩
  rw [exec_t0cb hs, handleOf_of_lt hlt]
  rfl

/-- Settles O37: what the three commands leave, read back. -/
theorem timerFrame : Obligations.TimerFrame := by
  refine ⟨fun s mode ie clk com tick init hwf => ?_, fun s value hwf => ?_, fun s handle hs => ?_⟩
  · refine ⟨_, exec_t0init hwf _ _ _ _ _ _, fun r h1 h2 h3 h4 => initialised_other _ _ _ _ _ _ _ h1 h2 h3 h4,
      fun k hk hn hc => ?_, rfl⟩
    have hbit : enableBit s.cfg mode ≠ some k := by
      cases mode with
      | normal => exact fun e => hn rfl (Option.some.inj e).symm
      | ctc => exact fun e => hc rfl (Option.some.inj e).symm
      | fastPwm => exact fun e => by cases e
    rw [initialised_timsk_bit _ _ _ _ _ _ hk, if_neg hbit]
  · exact ⟨_, exec_t0duty hwf value, fun r hr => by simp [hr], rfl⟩
  · exact ⟨_, exec_t0cb hs handle, rfl⟩

end Sys2Proof.Machine

/-! SUPPORT. The statements on events, the step and the environment (R25, R31, R100, R206 to R212). -/

namespace Sys2Proof.Machine

/-! ### The step, by what is presented -/

/-- The machine with the stimuli that remain. -/
def awaiting (rest : List Stimulus) (s : State) : State := { s with env := { s.env with pending := rest } }

/-- The machine with the stimuli that remain, its command index advanced (R41). -/
def advanced (rest : List Stimulus) (s : State) : State :=
  { s with env := { s.env with pending := rest, ci := s.env.ci + 1 } }

section
variable {s : State} {rest : List Stimulus}

theorem step_of_environment {e : EnvStep} (h : s.env.pending = .environment e :: rest) :
    step s = .next (environmentStep e (awaiting rest s)) := by
  simp only [step, nextStimulus, h, awaiting]

theorem step_of_command {w : CmdWord} {i : Instr} (h : s.env.pending = .command w :: rest)
    (hd : decode w = .ok i) : step s = exec i (advanced rest s) := by
  simp only [step, nextStimulus, h, hd, advanced]

theorem step_of_reserved {w : CmdWord} {why : Reserved} (h : s.env.pending = .command w :: rest)
    (hd : decode w = .error why) : step s = .refused (.reservedWord why) := by
  simp only [step, nextStimulus, h, hd]

theorem step_of_register {handle : Handle} (h : s.env.pending = .register handle :: rest) :
    step s = exec (.t0cb handle) (advanced rest s) := by
  simp only [step, nextStimulus, h, advanced]

theorem step_of_nothing (h : s.env.pending = []) : step s = .next s := by
  simp only [step, nextStimulus, h, idle]

end

/-- Settles O43: the command's meaning on the state with the word taken off. -/
theorem stepRunsTheDecodedCommand : Obligations.StepRunsTheDecodedCommand :=
  ⟨fun _ _ _ _ h hd => step_of_command h hd, fun _ _ _ h => step_of_register h⟩

/-- Settles O44: the decoder's reason is the refusal's. -/
theorem stepRefusesReservedWords : Obligations.StepRefusesReservedWords :=
  fun _ _ _ _ h hd => step_of_reserved h hd

/-- Settles O45: with no stimulus the step is the idle one. -/
theorem nothingPresentedChangesNothing : Obligations.NothingPresentedChangesNothing :=
  fun _ h => step_of_nothing h

/-- Settles O42: both environment writes replace one register. -/
theorem environmentOverwritesOneRegister : Obligations.EnvironmentOverwritesOneRegister := by
  intro s rest v
  have hwrite (r : Reg) : readReg (writeReg (awaiting rest s) r v) r = v ∧
      ∀ q, q ≠ r → readReg (writeReg (awaiting rest s) r v) q = readReg s q := by
    refine ⟨by simp, fun q hq => ?_⟩
    rw [readReg_writeReg, if_neg hq]
    rfl
  exact ⟨fun p h => ⟨_, step_of_environment h, (hwrite (.inp p)).1, (hwrite (.inp p)).2, rfl⟩,
    fun h => ⟨_, step_of_environment h, (hwrite .tcnt).1, (hwrite .tcnt).2, rfl⟩⟩

/-! ### Events -/

/-- The enable bit of an event's source, set or not; no other environment step has one (R206). -/
def eventEnabled (e : EnvStep) (s : State) : Bool :=
  match e with
  | .compareMatch => (readReg s .timsk).getLsbD s.cfg.ocieB
  | .overflow => (readReg s .timsk).getLsbD s.cfg.toieB
  | _ => false

/-- An event enabled and signalled outside service is delivered (R206, R207). -/
theorem environmentStep_of_admitted {e : EnvStep} {s : State} (he : eventEnabled e s = true)
    (hs : s.inService = false) : environmentStep e s = deliver s := by
  have hadmit : (eventEnabled e s && !s.inService) = true := by simp [he, hs]
  cases e with
  | compareMatch => exact if_pos hadmit
  | overflow => exact if_pos hadmit
  | setInput p v => cases he
  | setCounter v => cases he
  | callbackReturn => cases he

/-- An event of either source not enabled, or signalled in service, changes nothing (R206, R208). -/
theorem environmentStep_of_not_admitted {e : EnvStep} {s : State} (hevent : e = .compareMatch ∨ e = .overflow)
    (h : eventEnabled e s = false ∨ s.inService = true) : environmentStep e s = s := by
  have hadmit : ¬ (eventEnabled e s && !s.inService) = true := by
    rcases h with h | h <;> simp [h]
  rcases hevent with rfl | rfl
  · exact if_neg hadmit
  · exact if_neg hadmit

/-- A return signalled outside service changes nothing (R212). -/
theorem environmentStep_return_outside_service {s : State} (h : s.inService = false) :
    environmentStep .callbackReturn s = s :=
  if_neg (by simp [h])

theorem deliver_of_none {s : State} (h : s.cb = none) : deliver s = s := by
  simp only [deliver, h]

theorem deliver_of_some {s : State} {h : Handle} (hc : s.cb = some h) :
    deliver s = { invoke s h with inService := true } := by
  simp only [deliver, hc]

/-- Settles O38: an admitted event of either source is delivered. -/
theorem admittedEventInvokesTheCallback : Obligations.AdmittedEventInvokesTheCallback := by
  intro s e rest hp hs hevent
  have he : eventEnabled e (awaiting rest s) = true := by
    rcases hevent with ⟨rfl, hbit⟩ | ⟨rfl, hbit⟩ <;> exact hbit
  rw [step_of_environment hp, environmentStep_of_admitted he hs]
  exact ⟨fun hc => by rw [deliver_of_none (s := awaiting rest s) hc]; rfl,
    fun h hc => by rw [deliver_of_some (s := awaiting rest s) hc]; rfl⟩

/-- Settles O39: neither an event not admitted nor a return out of service changes the state. -/
theorem eventNotAdmittedChangesNothing : Obligations.EventNotAdmittedChangesNothing := by
  intro s e rest hp hevent
  have hkeep : environmentStep e (awaiting rest s) = awaiting rest s := by
    rcases hevent with ⟨rfl, h⟩ | ⟨rfl, h⟩ | ⟨rfl, h⟩
    · exact environmentStep_of_not_admitted (.inl rfl) h
    · exact environmentStep_of_not_admitted (.inr rfl) h
    · exact environmentStep_return_outside_service h
  rw [step_of_environment hp, hkeep]
  rfl

/-- Settles O40: the return clears the service flag, so admission is the enable alone. -/
theorem callbackReturnEndsService : Obligations.CallbackReturnEndsService := by
  intro s rest hp hs
  refine ⟨callbackReturn (awaiting rest s), ?_, rfl, Bool.and_true _, Bool.and_true _⟩
  rw [step_of_environment hp]
  exact congrArg _ (if_pos hs)

/-- Settles O41: only a delivery and a return change the service flag, and only a delivery emits. -/
theorem onlyEventsEnterAndLeaveService : Obligations.OnlyEventsEnterAndLeaveService := by
  intro s t hstep
  have hquiet (hservice : t.inService = s.inService) (hinv : t.env.invocations = s.env.invocations)
      {P Q : Prop} : (s.inService = false → t.inService = true → P) ∧
      (s.inService = true → t.inService = false → Q) ∧
      ((s.inService = true ∨ t.inService = false) → t.env.invocations = s.env.invocations) := by
    refine ⟨fun h h' => ?_, fun h h' => ?_, fun _ => hinv⟩
    · rw [hservice, h] at h'
      cases h'
    · rw [hservice, h] at h'
      cases h'
  rcases step_cases hstep with ⟨-, rfl⟩ | ⟨x, rest, i, -, -, hexec⟩ | ⟨e, rest, hp, ht⟩
  · exact hquiet rfl rfl
  · have hk := exec_keeps hexec
    exact hquiet hk.inService (by rw [hk.env])
  · rcases environmentStep_cases e _ with
      he | ⟨p, v, -, he⟩ | ⟨v, -, he⟩ | ⟨h, hs, hcb, henabled, he⟩ | ⟨rfl, hs, he⟩ <;>
      rw [he] at ht <;> subst ht
    · exact hquiet rfl rfl
    · exact hquiet rfl rfl
    · exact hquiet rfl rfl
    · refine ⟨fun _ _ => ⟨h, rest, hcb, rfl, ?_⟩, fun hs' => ?_, fun hs' => ?_⟩
      · rcases henabled with ⟨rfl, hbit⟩ | ⟨rfl, hbit⟩
        · exact .inl ⟨hp, hbit⟩
        · exact .inr ⟨hp, hbit⟩
      · cases hs.symm.trans hs'
      · rcases hs' with hs' | hs'
        · cases hs.symm.trans hs'
        · cases hs'
    · exact ⟨fun hs' => (by cases hs.symm.trans hs'), fun _ _ => ⟨rest, hp⟩, fun _ => rfl⟩

end Sys2Proof.Machine

/-! SUPPORT. The statements on the whole machine: what every command keeps, the invariant and the runs (R20, R33,
R36, R39, R44, R175, R200, R202, R255). -/

namespace Sys2Proof.Machine

/-! ### Every command -/

/-- A command is a GPIO command or one of the three Timer0 commands (R97). -/
theorem instr_cases (i : Instr) : IsGpio i ∨
    (∃ mode ie clk com tick init, i = .t0init mode ie clk com tick init) ∨ (∃ value, i = .t0duty value) ∨
    ∃ handle, i = .t0cb handle := by
  cases i with
  | t0init mode ie clk com tick init => exact .inr (.inl ⟨_, _, _, _, _, _, rfl⟩)
  | t0duty value => exact .inr (.inr (.inl ⟨_, rfl⟩))
  | t0cb handle => exact .inr (.inr (.inr ⟨_, rfl⟩))
  | _ => exact .inl (by simp [IsGpio, indexedId, portLevel])

/-- No GPIO command is T0INIT. -/
theorem op_ne_t0init_of_isGpio {i : Instr} (h : IsGpio i) : i.op ≠ .t0init := by
  cases i <;> simp_all [IsGpio, indexedId, portLevel, Instr.op]

/-- Everything a command can do under a well-formed configuration. -/
theorem exec_cases {i : Instr} {s t : State} (hwf : s.cfg.wf = true) (h : exec i s = .next t) :
    (IsGpio i ∧ (t = respond s (sentinel i) ∨ ∃ p, t = portEffect i p s ∨ t = portEffect i p (dropLatch s))) ∨
    (∃ mode ie clk com tick init, i = .t0init mode ie clk com tick init ∧
      t = initialised mode ie clk com tick init s) ∨
    (∃ value, i = .t0duty value ∧ t = writeReg (respond s none) .tcmp value) ∨
    ∃ handle, i = .t0cb handle ∧ s.inService = false ∧
      t = respond { s with cb := slotOf (handleOf s.cfg handle) } none := by
  rcases instr_cases i with hi | ⟨mode, ie, clk, com, tick, init, rfl⟩ | ⟨value, rfl⟩ | ⟨handle, rfl⟩
  · refine .inl ⟨hi, ?_⟩
    rcases exec_gpio hi with he | ⟨p, he⟩ | ⟨p, he⟩
    · cases (he s).symm.trans h
      exact .inl rfl
    · cases (he s hwf).symm.trans h
      exact .inr ⟨p, .inl rfl⟩
    · cases (he s hwf).symm.trans h
      exact .inr ⟨p, .inr rfl⟩
  · cases (exec_t0init hwf mode ie clk com tick init).symm.trans h
    exact .inr (.inl ⟨_, _, _, _, _, _, rfl, rfl⟩)
  · cases (exec_t0duty hwf value).symm.trans h
    exact .inr (.inr (.inl ⟨_, rfl, rfl⟩))
  · cases hs : s.inService with
    | false =>
      cases (exec_t0cb hs handle).symm.trans h
      exact .inr (.inr (.inr ⟨_, rfl, rfl, by rw [hs]⟩))
    | true => cases (exec_t0cb_inService hs handle).symm.trans h

/-- Settles O46: every command has a next state, but for the refusal of T0CB in service. -/
theorem everyCommandCompletes : Obligations.EveryCommandCompletes := by
  intro s i hwf
  rcases instr_cases i with hi | ⟨mode, ie, clk, com, tick, init, rfl⟩ | ⟨value, rfl⟩ | ⟨handle, rfl⟩
  · rcases exec_gpio hi with h | ⟨p, h⟩ | ⟨p, h⟩
    · exact .inl ⟨_, h s⟩
    · exact .inl ⟨_, h s hwf⟩
    · exact .inl ⟨_, h s hwf⟩
  · exact .inl ⟨_, exec_t0init hwf _ _ _ _ _ _⟩
  · exact .inl ⟨_, exec_t0duty hwf value⟩
  · cases hs : s.inService with
    | false => exact .inl ⟨_, exec_t0cb hs handle⟩
    | true => exact .inr ⟨⟨handle, rfl⟩, rfl, exec_t0cb_inService hs handle⟩

/-! ### Registers and their writers -/

/-- A command that may not write a direction register keeps it. -/
theorem newDir_of_not_writer {i : Instr} {p : Port} (h : mayWrite i.op (.dir p) = false) (v : Byte) :
    newDir i v = v := by
  cases i <;> simp_all [mayWrite, Instr.op, newDir]

/-- A command that may not write an output register keeps it. -/
theorem newOut_of_not_writer {i : Instr} {p : Port} (h : mayWrite i.op (.out p) = false) (v : Byte) :
    newOut i v = v := by
  cases i <;> simp_all [mayWrite, Instr.op, newOut]

/-- The effect of a command keeps the registers the command may not write. -/
theorem portEffect_of_not_writer {i : Instr} {r : Reg} (h : mayWrite i.op r = false) (p : Port) (s : State) :
    readReg (portEffect i p s) r = readReg s r := by
  by_cases hd : r = .dir p
  · subst hd
    rw [portEffect_dir, newDir_of_not_writer h]
  by_cases ho : r = .out p
  · subst ho
    rw [portEffect_out, newOut_of_not_writer h]
  exact portEffect_other _ _ _ hd ho

/-- Settles O47: every command keeps the registers it may not write. -/
theorem registersChangeOnlyByTheirWriters : Obligations.RegistersChangeOnlyByTheirWriters := by
  intro s t i r hwf h hr
  rcases exec_cases hwf h with ⟨-, rfl | ⟨p, rfl | rfl⟩⟩ |
    ⟨mode, ie, clk, com, tick, init, rfl, rfl⟩ | ⟨value, rfl, rfl⟩ | ⟨handle, rfl, -, rfl⟩
  · rfl
  · exact portEffect_of_not_writer hr p s
  · exact portEffect_of_not_writer hr p (dropLatch s)
  · exact initialised_other _ _ _ _ _ _ _ (by rintro rfl; cases hr) (by rintro rfl; cases hr)
      (by rintro rfl; cases hr) (by rintro rfl; cases hr)
  · rw [readReg_writeReg, if_neg (by rintro rfl; cases hr), readReg_respond]
  · rfl

/-- No command but T0INIT writes the control, the interrupt-mask or the counter register (R175 (c)). -/
theorem mayWrite_only_t0init {op : Op} (h : op ≠ .t0init) :
    mayWrite op .tctrl = false ∧ mayWrite op .timsk = false ∧ mayWrite op .tcnt = false := by
  cases op <;> simp_all [mayWrite]

/-- Settles O34: T0INIT twice is once, its control register forgets the old one, and it alone writes. -/
theorem t0initLaws : Obligations.T0initLaws := by
  refine ⟨fun s mode ie clk com tick init hwf => ?_, fun s s' mode ie clk com tick init hwf hcfg hfoc => ?_,
    fun s t i hwf hop h => ?_⟩
  · refine ⟨_, exec_t0init hwf mode ie clk com tick init, ?_⟩
    have htwice := exec_t0init (s := initialised mode ie clk com tick init s) hwf mode ie clk com tick init
    rwa [initialised_initialised hwf] at htwice
  · refine ⟨_, _, exec_t0init hwf _ _ _ _ _ _, exec_t0init (hcfg ▸ hwf) _ _ _ _ _ _, ?_⟩
    rw [initialised_tctrl, initialised_tctrl, ← hcfg]
    exact encTctrl_congr (newFoc_congr fun _ hk => hfoc hk) _ _
  · obtain ⟨hctrl, hmask, hcount⟩ := mayWrite_only_t0init hop
    exact ⟨registersChangeOnlyByTheirWriters s t i .tctrl hwf h hctrl,
      registersChangeOnlyByTheirWriters s t i .timsk hwf h hmask,
      registersChangeOnlyByTheirWriters s t i .tcnt hwf h hcount⟩

/-! ### The interrupt-mask register -/

/-- Everything a command can do to a bit of the interrupt-mask register: keep it, or as T0INIT update one of the
two enables (R173, R174). -/
theorem exec_timsk_bit {i : Instr} {s t : State} (hwf : s.cfg.wf = true) (h : exec i s = .next t) {k : Nat}
    (hk : k < 8) :
    (readReg t .timsk).getLsbD k = (readReg s .timsk).getLsbD k ∨
    ((k = s.cfg.ocieB ∨ k = s.cfg.toieB) ∧ ∃ ie : Bool,
      (readReg t .timsk).getLsbD k = (ie || (!s.cfg.pIeAssign && (readReg s .timsk).getLsbD k))) := by
  by_cases hop : i.op = .t0init
  · rcases exec_cases hwf h with ⟨hi, -⟩ | ⟨mode, ie, clk, com, tick, init, rfl, rfl⟩ | ⟨value, rfl, -⟩ |
      ⟨handle, rfl, -⟩
    · exact absurd hop (op_ne_t0init_of_isGpio hi)
    · rw [initialised_timsk_bit _ _ _ _ _ _ hk]
      split
      case isTrue hb =>
        refine .inr ⟨?_, ie, rfl⟩
        cases mode <;> simp_all [enableBit]
      case isFalse => exact .inl rfl
    · cases hop
    · cases hop
  · rw [registersChangeOnlyByTheirWriters s t i .timsk hwf h (mayWrite_only_t0init hop).2.1]
    exact .inl rfl

/-- No environment step writes the interrupt-mask or the control register (R25, R31, R207). -/
theorem environmentStep_timer (e : EnvStep) (s : State) :
    readReg (environmentStep e s) .timsk = readReg s .timsk ∧
      readReg (environmentStep e s) .tctrl = readReg s .tctrl := by
  rcases environmentStep_cases e s with
    he | ⟨p, v, -, he⟩ | ⟨v, -, he⟩ | ⟨h, -, -, -, he⟩ | ⟨-, -, he⟩ <;>
    rw [he] <;> exact ⟨rfl, rfl⟩

/-- Settles O49: commands change only the two enables of the register, and the environment none of it. -/
theorem foreignTimskBitsNeverChange : Obligations.ForeignTimskBitsNeverChange := by
  intro s t k hwf h hk hocie htoie
  rcases step_cases h with ⟨-, rfl⟩ | ⟨x, rest, i, -, -, hexec⟩ | ⟨e, rest, -, rfl⟩
  · rfl
  · rcases exec_timsk_bit (s := advanced rest s) hwf hexec hk with hkeep | ⟨hb | hb, -⟩
    · exact hkeep
    · exact absurd hb hocie
    · exact absurd hb htoie
  · rw [(environmentStep_timer e _).1]
    rfl

/-- Under the set-only policy no command clears a bit of the interrupt-mask register (R174, R255). -/
theorem exec_timsk_setOnly {i : Instr} {s t : State} (hwf : s.cfg.wf = true) (hpolicy : s.cfg.pIeAssign = false)
    (h : exec i s = .next t) {k : Nat} (hk : k < 8) (hbit : (readReg s .timsk).getLsbD k = true) :
    (readReg t .timsk).getLsbD k = true := by
  rcases exec_timsk_bit hwf h hk with hkeep | ⟨-, ie, hset⟩
  · rw [hkeep, hbit]
  · rw [hset, hpolicy, hbit, Bool.not_false, Bool.and_true, Bool.or_true]

/-- Settles O50: FastPWM keeps the register whole, and set-only updates clear no bit. -/
theorem fastPwmAndSetOnlyKeepTheEnables : Obligations.FastPwmAndSetOnlyKeepTheEnables := by
  refine ⟨fun s ie clk com tick init hwf => ?_, fun s t i hwf hpolicy h => ?_⟩
  · have hmask := initialised_timsk_fastPwm ie clk com tick init s
    exact ⟨_, exec_t0init hwf _ _ _ _ _ _, by rw [hmask], by rw [hmask], rfl, rfl⟩
  · obtain ⟨hocie, htoie, -⟩ := enableLayout hwf
    exact ⟨exec_timsk_setOnly hwf hpolicy h hocie, exec_timsk_setOnly hwf hpolicy h htoie⟩

/-! ### The mode -/

/-- No command but T0INIT changes the mode (R36). -/
theorem exec_tstate {i : Instr} {s t : State} (hwf : s.cfg.wf = true) (h : exec i s = .next t) :
    t.tstate = s.tstate ∨
      ∃ mode ie clk com tick init, i = .t0init mode ie clk com tick init ∧ t.tstate = modeState mode := by
  rcases exec_cases hwf h with ⟨-, rfl | ⟨p, rfl | rfl⟩⟩ |
    ⟨mode, ie, clk, com, tick, init, rfl, rfl⟩ | ⟨value, -, rfl⟩ | ⟨handle, -, -, rfl⟩
  case inr.inl => exact .inr ⟨_, _, _, _, _, _, rfl, rfl⟩
  all_goals exact .inl rfl

/-- No environment step changes the mode, the callback slot or the latch (R36, R37, R39). -/
theorem environmentStep_frame (e : EnvStep) (s : State) :
    (environmentStep e s).tstate = s.tstate ∧ (environmentStep e s).cb = s.cb ∧
      (environmentStep e s).dlatch = s.dlatch := by
  rcases environmentStep_cases e s with
    he | ⟨p, v, -, he⟩ | ⟨v, -, he⟩ | ⟨h, -, -, -, he⟩ | ⟨-, -, he⟩ <;>
    rw [he] <;> exact ⟨rfl, rfl, rfl⟩

theorem modeState_ne_uninitialized (mode : T0Mode) : modeState mode ≠ .uninitialized := by
  cases mode <;> decide

/-- Settles O48: a step that changes the mode performs a T0INIT word, whose mode is no Uninitialized. -/
theorem onlyT0initChangesTheMode : Obligations.OnlyT0initChangesTheMode := by
  intro s t hwf h
  have hmode : t.tstate = s.tstate ∨
      ∃ w rest mode ie clk com tick init, s.env.pending = .command w :: rest ∧
        decode w = .ok (.t0init mode ie clk com tick init) ∧ t.tstate = modeState mode := by
    rcases step_cases h with ⟨-, rfl⟩ | ⟨x, rest, i, hp, hx, hexec⟩ | ⟨e, rest, -, rfl⟩
    · exact .inl rfl
    · rcases exec_tstate (s := advanced rest s) hwf hexec with hkeep |
        ⟨mode, ie, clk, com, tick, init, rfl, hmode⟩
      · exact .inl hkeep
      · rcases hx with ⟨w, rfl, hdecode⟩ | ⟨handle, -, hcb⟩
        · exact .inr ⟨w, rest, mode, ie, clk, com, tick, init, hp, hdecode, hmode⟩
        · cases hcb
    · exact .inl (environmentStep_frame e _).1
  refine ⟨hmode, fun hs => ?_⟩
  rcases hmode with hkeep | ⟨w, rest, mode, ie, clk, com, tick, init, -, -, hset⟩
  · rwa [hkeep]
  · rw [hset]
    exact modeState_ne_uninitialized mode

/-! ### Reset and the invariant -/

/-- Settles O52: the components that reset sets. -/
theorem resetLeavesTheTableOfR45 : Obligations.ResetLeavesTheTableOfR45 :=
  fun cfg => ⟨resetOf_tstate cfg, resetOf_cb cfg, resetOf_inService cfg, resetOf_dlatch cfg, resetOf_resp cfg,
    rfl, fun _ => rfl, fun _ => rfl⟩

/-- The invariant is kept where the parameters, the slot, the mode and the control register are, the latch is
empty, and a service has its callback. -/
theorem State.Inv.congr {s t : State} (hs : s.Inv) (hcfg : t.cfg = s.cfg) (hlatch : t.dlatch = none)
    (hcb : t.cb = s.cb) (hservice : t.inService = true → s.cb.isSome = true) (hmode : t.tstate = s.tstate)
    (hctrl : readReg t .tctrl = readReg s .tctrl) : t.Inv := by
  have hctrl : t.regs.tctrl = s.regs.tctrl := hctrl
  obtain ⟨wfCfg, -, slotNonzero, slotWidth, -, wgmMatches, normalFields⟩ := hs
  refine ⟨hcfg ▸ wfCfg, hlatch, hcb ▸ slotNonzero, ?_, hcb ▸ hservice, ?_, ?_⟩
  · rwa [hcfg, hcb]
  · rwa [hcfg, hmode, hctrl]
  · rwa [hcfg, hmode, hctrl]

/-- The invariant says nothing of the surroundings. -/
theorem State.Inv.withEnv {s : State} (hs : s.Inv) (env : Surroundings) : State.Inv { s with env := env } :=
  hs.congr rfl hs.latchEmpty rfl hs.serviceHasCallback rfl rfl

/-- Settles O53: after reset the mode is Uninitialized, the slot and the latch empty, nothing in service. -/
theorem invariantHoldsAtReset : Obligations.InvariantHoldsAtReset := by
  intro cfg stimuli hwf
  have hreset : State.Inv (State.resetOf cfg) :=
    { wfCfg := hwf
      latchEmpty := rfl
      slotNonzero := by simp
      slotWidth := by simp
      serviceHasCallback := by simp
      wgmMatches := by simp [wgmOf]
      normalFields := by simp }
  exact ⟨hreset, hreset.withEnv _⟩

/-- T0INIT leaves the control register that its mode requires (R36, R170). -/
theorem initialised_inv {s : State} (hs : s.Inv) (mode : T0Mode) (ie : Bool) (clk com tick init : Byte) :
    (initialised mode ie clk com tick init s).Inv := by
  obtain ⟨wfCfg, latchEmpty, slotNonzero, slotWidth, serviceHasCallback, -, -⟩ := hs
  refine ⟨wfCfg, latchEmpty, slotNonzero, slotWidth, serviceHasCallback, fun m hm => ?_, fun hn => ?_⟩
  · have hhi := initialised_wgmHi mode ie clk com tick init wfCfg
    have hlo := initialised_wgmLo mode ie clk com tick init wfCfg
    refine (congrArg₂ Prod.mk hhi hlo).trans ?_
    cases mode <;> exact Option.some.inj hm
  · have hmode : mode = .normal := by
      cases mode with
      | normal => rfl
      | ctc => cases hn
      | fastPwm => cases hn
    subst hmode
    refine ⟨initialised_foc_normal ie clk com tick init wfCfg, BitVec.eq_of_getLsbD_eq fun k hk => ?_⟩
    have hcom := initialised_com_normal ie clk com tick init wfCfg hk
    rw [comOf, BitVec.getLsbD_extractLsb', BitVec.ofNat_eq_ofNat, BitVec.getLsbD_zero]
    exact Bool.and_eq_false_imp.mpr fun _ => hcom

/-- A registration fills the slot with a handle or empties it, outside service (R177). -/
theorem registered_inv {s : State} (hs : s.Inv) (hservice : s.inService = false) (handle : Handle) :
    State.Inv (respond { s with cb := slotOf (handleOf s.cfg handle) } none) where
  wfCfg := hs.wfCfg
  latchEmpty := hs.latchEmpty
  slotNonzero h := (slotOf_eq_some h).2 (slotOf_eq_some h).1.symm
  slotWidth h hh := by
    rw [(slotOf_eq_some hh).1]
    exact handleOf_lt s.cfg handle
  serviceHasCallback h := by cases hservice.symm.trans h
  wgmMatches := hs.wgmMatches
  normalFields := hs.normalFields

/-- Every command keeps the invariant. -/
theorem exec_keeps_inv {i : Instr} {s t : State} (hs : s.Inv) (h : exec i s = .next t) : t.Inv := by
  rcases exec_cases hs.wfCfg h with ⟨hi, ht⟩ | ⟨mode, ie, clk, com, tick, init, -, rfl⟩ | ⟨value, -, rfl⟩ |
    ⟨handle, -, hservice, rfl⟩
  · have hctrl := registersChangeOnlyByTheirWriters s t i .tctrl hs.wfCfg h
      (mayWrite_only_t0init (op_ne_t0init_of_isGpio hi)).1
    rcases ht with rfl | ⟨p, rfl | rfl⟩
    · exact hs.congr rfl hs.latchEmpty rfl hs.serviceHasCallback rfl hctrl
    · exact hs.congr rfl hs.latchEmpty rfl hs.serviceHasCallback rfl hctrl
    · exact hs.congr rfl rfl rfl hs.serviceHasCallback rfl hctrl
  · exact initialised_inv hs mode ie clk com tick init
  · exact hs.congr rfl hs.latchEmpty rfl hs.serviceHasCallback rfl rfl
  · exact registered_inv hs hservice handle

/-- Service begins only with a callback in the slot (R207, R44 (c)). -/
theorem environmentStep_service {e : EnvStep} {s : State} (hs : s.Inv)
    (h : (environmentStep e s).inService = true) : s.cb.isSome = true := by
  rcases environmentStep_cases e s with
    he | ⟨p, v, -, he⟩ | ⟨v, -, he⟩ | ⟨h, -, hcb, -, -⟩ | ⟨-, -, he⟩
  case inr.inr.inr.inl => rw [hcb, Option.isSome_some]
  all_goals rw [he] at h
  case inr.inr.inr.inr => cases h
  all_goals exact hs.serviceHasCallback h

/-- Every environment step keeps the invariant. -/
theorem environmentStep_keeps_inv {s : State} (hs : s.Inv) (e : EnvStep) : (environmentStep e s).Inv := by
  obtain ⟨hmode, hcb, hlatch⟩ := environmentStep_frame e s
  exact hs.congr (environmentStep_cfg e s) (hlatch.trans hs.latchEmpty) hcb (environmentStep_service hs) hmode
    (environmentStep_timer e s).2

/-- Settles O54: commands and environment steps keep the invariant, which does not see the surroundings. -/
theorem everyStepKeepsTheInvariant : Obligations.EveryStepKeepsTheInvariant := by
  intro s t hs h
  rcases step_cases h with ⟨-, rfl⟩ | ⟨x, rest, i, -, -, hexec⟩ | ⟨e, rest, -, rfl⟩
  · exact hs
  · exact exec_keeps_inv (hs.withEnv _) hexec
  · exact environmentStep_keeps_inv (hs.withEnv _) e

/-! ### Runs -/

theorem noFault_next (s : State) : NoFault (.next s) := fun _ h => by cases h

theorem noFault_refused (r : Refusal) : NoFault (.refused r) := fun _ h => by cases h

/-- No command faults under a well-formed configuration (R200). -/
theorem exec_noFault {s : State} (hwf : s.cfg.wf = true) (i : Instr) : NoFault (exec i s) := by
  rcases everyCommandCompletes s i hwf with ⟨t, ht⟩ | ⟨-, -, hr⟩
  · rw [ht]
    exact noFault_next t
  · rw [hr]
    exact noFault_refused _

/-- No step faults from a state that meets the invariant (R200). -/
theorem step_noFault {s : State} (hs : s.Inv) : NoFault (step s) := by
  cases hp : s.env.pending with
  | nil =>
    rw [step_of_nothing hp]
    exact noFault_next s
  | cons x rest =>
    cases x with
    | command w =>
      cases hd : decode w with
      | ok i =>
        rw [step_of_command hp hd]
        exact exec_noFault (s := advanced rest s) hs.wfCfg i
      | error why =>
        rw [step_of_reserved hp hd]
        exact noFault_refused _
    | register handle =>
      rw [step_of_register hp]
      exact exec_noFault (s := advanced rest s) hs.wfCfg _
    | environment e =>
      rw [step_of_environment hp]
      exact noFault_next _

/-- A run goes on from the next state. -/
theorem run_succ_of_next {M : Host.Core} {s s' : M.State} (h : M.step s = .next s') (n : Nat) :
    M.run (n + 1) s = M.run n s' := by
  simp only [Host.Core.run, h]

/-- A run ends with the first refusal. -/
theorem run_succ_of_refused {M : Host.Core} {s : M.State} {r : M.Refusal} (h : M.step s = .refused r)
    (n : Nat) : M.run (n + 1) s = .refused r := by
  simp only [Host.Core.run, h]

/-- Settles O55: by induction on the length of the run, each step keeping the invariant and raising no fault. -/
theorem runsNeverFault : Obligations.RunsNeverFault := by
  intro s n hs
  induction n generalizing s with
  | zero =>
    refine ⟨noFault_next s, fun t ht => ?_⟩
    cases ht
    exact hs
  | succ n ih =>
    cases hstep : step s with
    | next s' =>
      rw [run_succ_of_next (M := core) hstep n]
      exact ih s' (everyStepKeepsTheInvariant s s' hs hstep)
    | fault f => exact absurd hstep (step_noFault hs f)
    | refused r =>
      rw [run_succ_of_refused (M := core) hstep n]
      exact ⟨noFault_refused r, fun t ht => by cases ht⟩

end Sys2Proof.Machine
